-- ==== Sys2Proof/Word.lean ====
section
/-! DEFINITION. The byte and address types, the least quotient `ceilDiv`, and the names of the two
phone-number inputs that PACK_PHONE's field `S` selects (00_scope.md R7, 30_encoding.md R52). -/

namespace Sys2Proof

/-- A byte, `b[7:0]` (R7). -/
abbrev Byte := BitVec 8

/-- A host address (R32; `HOST_ADDR_BITS = 16` of R5). -/
abbrev Addr := BitVec 16

/-- The least `q` with `q * b >= a` (R7), for `b > 0`. -/
def ceilDiv (a b : Nat) : Nat := (a + b - 1) / b

/-- Field `S` of PACK_PHONE (R52): which digit string is packed. -/
inductive PhoneSource where
  /-- `S = 0`: SC_IN with length SC_LEN. -/
  | sc
  /-- `S = 1`: DA_IN with length DA_LEN. -/
  | da
  deriving DecidableEq, Repr

end Sys2Proof
end

