-- ==== Sys2Proof/Config.lean ====
section
/-! DEFINITION. The implementation parameters of 00_scope.md R5 and the free byte `draw8()` of R8. -/

namespace Sys2Proof

/-- The two legal values of the build parameter `DIGIT_CHECK` (R5; 92_eei_decisions.md D8). -/
inductive DigitCheck where
  /-- A non-digit address character is rejected with INVALID_DIGIT. -/
  | strict
  /-- No address character is rejected; the affected bytes are draws (R63). -/
  | passthrough
  deriving DecidableEq, Repr

/-- `DIGIT_CHECK` of this hardware (R5, R23). The operations take the parameter as an argument
(R31); `exec` and `step` give them this value. -/
def Config.digitCheck : DigitCheck := .strict

/-- `OUT_SIZE` (R5): bytes in OUT, and the ceiling of the effective capacity (R37). -/
def Config.outSize : Nat := 256

/-- `IN_SIZE` (R5): bytes in each of SC_IN, DA_IN and TEXT_IN. -/
def Config.inSize : Nat := 256

/-- `HEX_SIZE` (R5): bytes in HEX. -/
def Config.hexSize : Nat := 512

/-- `TEXT_MAX` (R5): the longest text ENCODE_PDU accepts. -/
def Config.textMax : Nat := 160

/-- `TOA` (R5): the type-of-address octet. -/
def Config.toa : Byte := 0x91#8

/-- `MTI_SUBMIT` (R5): the message-type octet. -/
def Config.mtiSubmit : Byte := 0x11#8

/-- `MR` (R5): the message-reference octet. -/
def Config.mr : Byte := 0x00#8

/-- `PID` (R5): the protocol-identifier octet. -/
def Config.pid : Byte := 0x00#8

/-- `DCS` (R5): the data-coding-scheme octet. -/
def Config.dcs : Byte := 0x00#8

/-- `VP` (R5): the validity-period octet. -/
def Config.vp : Byte := 0xB0#8

/-- `FILL` (R5): the fill nibble of an odd-length address. -/
def Config.fill : Byte := 0x0F#8

/-- The free byte `draw8()` (R8, R30, R63, R95): the value of the `n`-th draw of a run. It has no
body, so nothing can be proved of its value. Log entry 1. -/
opaque Config.freeByte : Nat → Byte

end Sys2Proof
end

