-- ==== Sys2Proof/Syntax.lean ====
section
/-! DEFINITION. The commands of SMSPDU-ENC/1, one constructor per row of spec/opcode_table.json
(30_encoding.md R54). -/

namespace Sys2Proof

/-- A legal command. Its operands are implicit (R56), but for PACK_PHONE's field `S`. -/
inductive Instr where
  /-- PACK_PHONE (R65): pack one digit string into semi-octets at OUT[0]. -/
  | packPhone (src : PhoneSource)
  /-- PACK_TEXT (R72): pack the text into the 7-bit stream at OUT[0]. -/
  | packText
  /-- ENCODE_PDU (R82): assemble the whole SMS-SUBMIT PDU in OUT. -/
  | encodePdu
  /-- HEX_FORMAT (R89): write the ASCII hex text of OUT[0 .. RESULT_LEN-1] into HEX. -/
  | hexFormat
  deriving DecidableEq, Repr

end Sys2Proof
end

