-- ==== Sys2Proof/Machine/State.lean ====
section
/-! DEFINITION. The state of the block (10_state.md), its outcome names, the events of its port,
and the state after reset (R29, R30). -/

namespace Sys2Proof.Machine

/-- The six values STATUS can hold (R17, R91); `Status.code` gives their bytes. -/
inductive Status where
  /-- 0: the command completed. -/
  | ok
  /-- 1: a non-digit where a digit was expected (STRICT). -/
  | invalidDigit
  /-- 2: DA_LEN = 0 at ENCODE_PDU. -/
  | emptyDestination
  /-- 3: TEXT_LEN > 160 at ENCODE_PDU. -/
  | textTooLong
  /-- 4: the output capacity was insufficient at a packing step. -/
  | bufferTooSmall
  /-- 5: an illegal command byte. -/
  | illegalCommand
  deriving DecidableEq, Repr

/-- The error kinds a packing command can raise: the source's `EncodeError` (R11, R91). -/
inductive EncodeError where
  | invalidDigit
  | emptyDestination
  | textTooLong
  | bufferTooSmall
  deriving DecidableEq, Repr

/-- The block has no fault: nothing in it is fatal (R93), no access is a bus error (R41) and no
command hangs (R118). The type has no constructor, so nobody raises one. -/
inductive Fault where
  deriving DecidableEq, Repr

/-- Reasons to give no meaning to an instruction. -/
inductive Refusal where
  /-- An instruction whose meaning is not written yet. Raised by a refused arm of `exec` only; no
  arm is refused in this model. Safe: the machine stops. -/
  | notModelled (mnemonic : String)
  deriving DecidableEq, Repr

/-- What the world outside the block can do to it: one host access (R32) or the reset input
(R107). -/
inductive PortEvent where
  /-- `MemRead(addr, 1)`. -/
  | read (addr : Addr)
  /-- `MemWrite(addr, 1, v)`. -/
  | write (addr : Addr) (v : Byte)
  /-- The integrator's reset input. -/
  | reset
  deriving DecidableEq, Repr

/-- The five byte buffers (R14). -/
inductive Buffer where
  | out
  | scIn
  | daIn
  | textIn
  | hex
  deriving DecidableEq, Repr

/-- The registers of the host map (R15). -/
inductive Reg where
  | cmd
  | status
  | resultLenLo
  | resultLenHi
  | tpduLenLo
  | tpduLenHi
  | hexCountLo
  | hexCountHi
  | scLen
  | daLen
  | textLen
  | config
  | outCapLo
  | outCapHi
  deriving DecidableEq, Repr

/-- What stands at a host address (R33). -/
inductive Region where
  /-- A byte of a buffer. -/
  | buffer (b : Buffer)
  /-- A register. -/
  | register (r : Reg)
  /-- 0x060E to 0xFFFF. -/
  | reserved
  deriving DecidableEq, Repr

/-- The state of the block between two host accesses, with the host's side of the port. -/
structure State where
  /-- STATUS (R17). -/
  status : Status
  /-- RESULT_LEN, 0 to 256 (R18). -/
  resultLen : Fin 257
  /-- TPDU_LEN, 0 to 256 (R19). -/
  tpduLen : Fin 257
  /-- HEX_COUNT, 0 to 512 (R20). -/
  hexCount : Fin 513
  /-- SC_LEN (R21). -/
  scLen : BitVec 8
  /-- DA_LEN (R21). -/
  daLen : BitVec 8
  /-- TEXT_LEN (R21). -/
  textLen : BitVec 8
  /-- OUT_CAP, 9 bits (R22). -/
  outCap : BitVec 9
  /-- The five buffers (R14), by host address (R32, R33): the bytes written since reset, addresses
  strictly rising. -/
  mem : List Host.Cell
  /-- The model's own: how many free bytes have been drawn. Log entry 2. -/
  draws : Nat
  /-- The model's own: the port events still to come, oldest first (R58, R119). Log entry 3. -/
  port : List PortEvent
  /-- The model's own: the values the host's reads returned, oldest first (R119). Log entry 3. -/
  observed : List Byte
  deriving DecidableEq, Repr

/-- The state right after reset: the registers of R29, no buffer byte written (R30), the engine
idle (R108), nothing yet asked or answered at the port. -/
def State.reset : State where
  status := .ok
  resultLen := 0
  tpduLen := 0
  hexCount := 0
  scLen := 0#8
  daLen := 0#8
  textLen := 0#8
  outCap := 256#9
  mem := []
  draws := 0
  port := []
  observed := []

end Sys2Proof.Machine
end

