-- ==== Sys2Proof/Machine/Ops.lean ====
section
/-! DEFINITION. The named operations every meaning is built from: the memory of written bytes, the
free byte, reading and writing runs of bytes, the effective capacity, the success and error exits
of a packing command, and the response to an illegal byte (10_state.md, 20_memory.md,
60_exceptions.md). -/

namespace Sys2Proof.Machine

/-- What an unlisted address reads as: no value. It was not written since reset, and its read is a
draw (R30). -/
def Memory.unlisted : Option Byte := none

/-- The byte held at an address, or `Memory.unlisted`. -/
def Memory.get : List Host.Cell → Nat → Option Byte
  | [], _ => Memory.unlisted
  | (k, b) :: rest, a => if a = k then some b else Memory.get rest a

/-- Write one byte, keeping the addresses strictly rising. -/
def Memory.set : List Host.Cell → Nat → Byte → List Host.Cell
  | [], a, b => [(a, b)]
  | (k, c) :: rest, a, b =>
    if a < k then (a, b) :: (k, c) :: rest
    else if a = k then (a, b) :: rest
    else (k, c) :: Memory.set rest a b

/-- The canonical form: addresses strictly rising. An unlisted address has no value, so no entry
can equal what an unlisted address reads as. -/
abbrev Memory.wf (m : List Host.Cell) : Prop := m.Pairwise (fun x y => x.1 < y.1)

/-- The byte at a host address of a buffer, if it was written since reset. -/
def State.peek (s : State) (a : Nat) : Option Byte := Memory.get s.mem a

/-- `draw8()` (R8): a fresh unconstrained byte. -/
def State.draw (s : State) : Byte × State :=
  (Config.freeByte s.draws, { s with draws := s.draws + 1 })

/-- One read of a buffer byte: the byte written there, or a fresh draw if none was (R30). -/
def State.readByte (s : State) (a : Nat) : Byte × State :=
  match s.peek a with
  | some b => (b, s)
  | none => s.draw

/-- One write of a buffer byte (`BUF[i] <- v`, R8). -/
def State.writeByte (s : State) (a : Nat) (b : Byte) : State :=
  { s with mem := Memory.set s.mem a b }

/-- Read `n` bytes from address `a` on, each exactly once, in rising order (R62, R69). -/
def State.readBytes : State → Nat → Nat → List Byte × State
  | s, _, 0 => ([], s)
  | s, a, n + 1 =>
    match s.readByte a with
    | (b, s1) =>
      match State.readBytes s1 (a + 1) n with
      | (bs, s2) => (b :: bs, s2)

/-- Write a run of bytes from address `a` on; `none` writes a fresh draw (`BUF[i] <- draw8()`). -/
def State.putBytes : State → Nat → List (Option Byte) → State
  | s, _, [] => s
  | s, a, some b :: rest => State.putBytes (s.writeByte a b) (a + 1) rest
  | s, a, none :: rest =>
    match s.draw with
    | (b, s1) => State.putBytes (s1.writeByte a b) (a + 1) rest

/-- The effective capacity `eff_cap = min(OUT_CAP, 256)` (R37). No command writes OUT_CAP (R28),
so reading it at any point of a command reads its value at the start. -/
def State.effCap (s : State) : Nat := min s.outCap.toNat Config.outSize

/-- The STATUS a raised error leaves (R91, R95). -/
def EncodeError.status : EncodeError → Status
  | .invalidDigit => .invalidDigit
  | .emptyDestination => .emptyDestination
  | .textTooLong => .textTooLong
  | .bufferTooSmall => .bufferTooSmall

/-- The error exit `raise E` (R95): OUT[0 .. eff_cap-1] become draws, STATUS takes the code, and
the result registers become 0. Nothing is saved and control goes nowhere (R98), so there is no
return beside it (R99). -/
def State.raise (s : State) (e : EncodeError) : State :=
  { s.putBytes 0 (List.replicate s.effCap none) with
    status := e.status, resultLen := 0, tpduLen := 0, hexCount := 0 }

/-- The success exit `finish(len, tpdu)` (R94). Every caller's `len` and `tpdu` are at most 256. -/
def State.finish (s : State) (len tpdu : Nat) : State :=
  { s with
    status := .ok, resultLen := Fin.ofNat 257 len, tpduLen := Fin.ofNat 257 tpdu, hexCount := 0 }

/-- The response to an illegal command byte (R97). -/
def State.illegalCommand (s : State) : State := { s with status := .illegalCommand }

/-- How far a packing command has come: the running output position `p` of R27 with the state, or
the first error raised. -/
inductive Progress where
  | reached (p : Nat) (s : State)
  | raised (e : EncodeError) (s : State)
  deriving DecidableEq, Repr

/-- Go on with the next packing step unless an error was raised (R96: the first error ends the
command). -/
def Progress.andThen (r : Progress) (next : Nat → State → Progress) : Progress :=
  match r with
  | .reached p s => next p s
  | .raised e s => .raised e s

/-- End the command: through `success` at the position reached, or through the error exit. -/
def Progress.close (r : Progress) (success : Nat → State → State) : State :=
  match r with
  | .reached p s => success p s
  | .raised e s => s.raise e

/-- The capacity check before a field of `n` bytes at position `p` (R37, R82): BUFFER_TOO_SMALL
when the field would end past `eff_cap`. -/
def State.ifFits (s : State) (p n : Nat) (field : Progress) : Progress :=
  if p + n > s.effCap then .raised .bufferTooSmall s else field

/-- A field of fixed octets at position `p`, behind its capacity check. -/
def State.putOctets (s : State) (p : Nat) (octets : List Byte) : Progress :=
  s.ifFits p octets.length
    (.reached (p + octets.length) (s.putBytes p (octets.map some)))

end Sys2Proof.Machine
end

