-- ==== Sys2Proof/Machine/Operands.lean ====
section
/-! DEFINITION. The buffers' places in host space (20_memory.md R33), the implicit operands of the
commands (30_encoding.md R56), and the character operations: digits (R61), septets (R68) and hex
characters (R87). -/

namespace Sys2Proof.Machine

/-- The host address of a buffer's index 0 (R33). -/
def Buffer.base : Buffer → Nat
  | .out => 0x0000
  | .scIn => 0x0100
  | .daIn => 0x0200
  | .textIn => 0x0300
  | .hex => 0x0400

/-- A buffer's size in bytes (R14). -/
def Buffer.size : Buffer → Nat
  | .out => Config.outSize
  | .scIn => Config.inSize
  | .daIn => Config.inSize
  | .textIn => Config.inSize
  | .hex => Config.hexSize

/-- Whether the host may write the buffer (R14, R33). -/
def Buffer.hostWritable : Buffer → Bool
  | .out => false
  | .scIn => true
  | .daIn => true
  | .textIn => true
  | .hex => false

/-- The digit string PACK_PHONE's `S` selects (R52, R65): its buffer. -/
def phoneBuffer : PhoneSource → Buffer
  | .sc => .scIn
  | .da => .daIn

/-- The digit string PACK_PHONE's `S` selects (R52, R65): its length, zero-extended (R56). -/
def State.phoneLen (s : State) : PhoneSource → Nat
  | .sc => s.scLen.toNat
  | .da => s.daLen.toNat

/-- A byte is a digit when `0x30 <= c <= 0x39` (R61). -/
def isDigit (c : Byte) : Bool := 0x30 ≤ c.toNat && c.toNat ≤ 0x39

/-- The digit value `c - 0x30` of a digit (R61). -/
def digitValue (c : Byte) : Byte := c - 0x30#8

/-- The character a text byte enters the packing as: its low 7 bits (R68). -/
def septet (c : Byte) : Byte := c &&& 0x7F#8

/-- The ASCII hex digit, upper case, of a nibble given as a byte below 16 (R87). -/
def hexChar (v : Byte) : Byte :=
  if v.toNat ≤ 9 then 0x30#8 + v else 0x41#8 + (v - 10#8)

end Sys2Proof.Machine
end

