-- ==== Sys2Proof/Machine/HexFormatter.lean ====
section
/-! DEFINITION. HEX_FORMAT, the byte-to-ASCII-hex formatter (44_hex_formatter.md). -/

namespace Sys2Proof.Machine

/-- The hex text of a byte string: for each byte the character of its high nibble, then that of its
low nibble (R87, R88). No terminator (R90). -/
def hexText : List Byte → List Byte
  | [] => []
  | b :: rest => hexChar (b >>> 4) :: hexChar (b &&& 0x0F#8) :: hexText rest

/-- HEX_FORMAT (R89): OUT[0 .. RESULT_LEN-1] is read, each byte once, and its hex text written to
HEX. OUT and HEX do not overlap, so reading all of OUT first is the loop of R89. -/
def hexFormatEffect (s : State) : State :=
  match s.readBytes Buffer.out.base s.resultLen.val with
  | (bs, s1) =>
    { s1.putBytes Buffer.hex.base ((hexText bs).map some) with
      hexCount := Fin.ofNat 513 (2 * s.resultLen.val), status := .ok }

/-- HEX_FORMAT (R89). -/
def execHexFormat (s : State) : Host.Outcome State Fault Refusal :=
  .next (hexFormatEffect s)

end Sys2Proof.Machine
end

