-- ==== Sys2Proof/Machine/PhonePacker.lean ====
section
/-! DEFINITION. PACK_PHONE and the semi-octet packing `PackDigits` it shares with ENCODE_PDU
(41_phone_number_packer.md). -/

namespace Sys2Proof.Machine

/-- The OUT byte of a pair of digits: the earlier in the low nibble, the later in the high nibble
(R62). `none`, a draw, when one of them is a non-digit (R63). -/
def pairOctet (c0 c1 : Byte) : Option Byte :=
  if isDigit c0 && isDigit c1 then some ((digitValue c1 <<< 4) ||| digitValue c0) else none

/-- The OUT byte of a last digit without a partner: the high nibble is the fill (R62); a draw for a
non-digit (R63). -/
def lastOctet (c : Byte) : Option Byte :=
  if isDigit c then some ((Config.fill <<< 4) ||| digitValue c) else none

/-- The OUT bytes of a digit string (R62, R63). -/
def semiOctets : List Byte → List (Option Byte)
  | [] => []
  | [c] => [lastOctet c]
  | c0 :: c1 :: rest => pairOctet c0 c1 :: semiOctets rest

/-- `PackDigits(SRC, n, base)` (R62) at output position `p`: read the `n` characters at host address
`src` on, check them under STRICT, and write their semi-octets. -/
def packDigits (dc : DigitCheck) (src n p : Nat) (s : State) : Progress :=
  match s.readBytes src n with
  | (cs, s1) =>
    if dc = .strict ∧ cs.all isDigit = false then .raised .invalidDigit s1
    else .reached (p + ceilDiv n 2) (s1.putBytes p (semiOctets cs))

/-- PACK_PHONE under a given `DIGIT_CHECK` (R65): the capacity check first, then the digits. -/
def packPhoneWith (dc : DigitCheck) (src : PhoneSource) (s : State) : State :=
  (s.ifFits 0 (ceilDiv (s.phoneLen src) 2)
    (packDigits dc (phoneBuffer src).base (s.phoneLen src) 0 s)).close
    (fun p s' => s'.finish p 0)

/-- PACK_PHONE on this hardware (R65). -/
def execPackPhone (src : PhoneSource) (s : State) : Host.Outcome State Fault Refusal :=
  .next (packPhoneWith Config.digitCheck src s)

end Sys2Proof.Machine
end

