-- ==== Sys2Proof/Machine/TextPacker.lean ====
section
/-! DEFINITION. PACK_TEXT and the 7-bit packing `Pack7` it shares with ENCODE_PDU
(42_seven_bit_text_packer.md). -/

namespace Sys2Proof.Machine

/-- The loop of `Pack7` (R69) from shift counter `k` on the characters not yet passed by its input
index: one output byte for each pair of neighbours, one more character passed when `k` comes to 8,
and `c >> (k-1)` alone for a last character. A byte's shifts drop what leaves the byte (`& 0xFF`). -/
def pack7Loop : List Byte → Nat → List Byte
  | [], _ => []
  | [c], k => [c >>> (k - 1)]
  | c0 :: c1 :: rest, k =>
    ((c0 >>> (k - 1)) ||| (c1 <<< (8 - k))) ::
      (if k + 1 = 8 then pack7Loop rest 1 else pack7Loop (c1 :: rest) (k + 1))

/-- The OUT bytes of a text (R68, R69): its septets through the loop from `k = 1`. -/
def pack7 (text : List Byte) : List Byte := pack7Loop (text.map septet) 1

/-- `Pack7(TEXT_IN, n, base)` at output position `p` (R69). It raises nothing. -/
def packSeptets (n p : Nat) (s : State) : Progress :=
  match s.readBytes Buffer.textIn.base n with
  | (cs, s1) => .reached (p + ceilDiv (7 * n) 8) (s1.putBytes p ((pack7 cs).map some))

/-- PACK_TEXT (R72). -/
def packTextEffect (s : State) : State :=
  (s.ifFits 0 (ceilDiv (7 * s.textLen.toNat) 8) (packSeptets s.textLen.toNat 0 s)).close
    (fun p s' => s'.finish p 0)

/-- PACK_TEXT (R72). -/
def execPackText (s : State) : Host.Outcome State Fault Refusal :=
  .next (packTextEffect s)

end Sys2Proof.Machine
end

