-- ==== Sys2Proof/Machine/PduAssembler.lean ====
section
/-! DEFINITION. ENCODE_PDU, the PDU header assembler (43_pdu_assembler.md). -/

namespace Sys2Proof.Machine

/-- A present address field at position `p` (R76, R78): its digit count (R84), the type-of-address
octet and the packed digits, behind one capacity check for all of them. -/
def addressField (dc : DigitCheck) (src : PhoneSource) (p : Nat) (s : State) : Progress :=
  s.ifFits p (2 + ceilDiv (s.phoneLen src) 2)
    (packDigits dc (phoneBuffer src).base (s.phoneLen src) (p + 2)
      (s.putBytes p [some (BitVec.ofNat 8 (s.phoneLen src)), some Config.toa]))

/-- Step 1 (R76, R86): the service-center field, or the single byte 0x00 for an absent one. -/
def scField (dc : DigitCheck) (p : Nat) (s : State) : Progress :=
  if s.scLen = 0#8 then s.putOctets p [0x00#8] else addressField dc .sc p s

/-- Step 2 (R77): message type and message reference. -/
def messageField (p : Nat) (s : State) : Progress :=
  s.putOctets p [Config.mtiSubmit, Config.mr]

/-- Step 3 (R78): the destination field. -/
def daField (dc : DigitCheck) (p : Nat) (s : State) : Progress := addressField dc .da p s

/-- Step 4 (R79): protocol identifier, data-coding scheme and validity period. -/
def parameterField (p : Nat) (s : State) : Progress :=
  s.putOctets p [Config.pid, Config.dcs, Config.vp]

/-- Step 5 (R80): the user-data length, a character count, and the packed text, behind one capacity
check. -/
def userDataField (p : Nat) (s : State) : Progress :=
  s.ifFits p (1 + ceilDiv (7 * s.textLen.toNat) 8)
    (packSeptets s.textLen.toNat (p + 1) (s.putBytes p [some s.textLen]))

/-- Steps 2 to 5 (R77 to R80), from the end of the service-center field. -/
def tpduFields (dc : DigitCheck) (p : Nat) (s : State) : Progress :=
  (((messageField p s).andThen (daField dc)).andThen parameterField).andThen userDataField

/-- ENCODE_PDU under a given `DIGIT_CHECK` (R82): the argument checks, then steps 1 to 5, then the
success exit with the TPDU length of R85. -/
def encodePduWith (dc : DigitCheck) (s : State) : State :=
  if s.daLen = 0#8 then s.raise .emptyDestination
  else if s.textLen.toNat > Config.textMax then s.raise .textTooLong
  else
    (scField dc 0 s).close fun scEnd s1 =>
      (tpduFields dc scEnd s1).close fun p s' => s'.finish p (p - scEnd)

/-- ENCODE_PDU on this hardware (R82). -/
def execEncodePdu (s : State) : Host.Outcome State Fault Refusal :=
  .next (encodePduWith Config.digitCheck s)

end Sys2Proof.Machine
end

