-- ==== Sys2Proof/Machine/Dispatch.lean ====
section
/-! DEFINITION. One arm per command (30_encoding.md R54). -/

namespace Sys2Proof.Machine

/-- The meaning of a command: the engine's one atomic transition (R13). -/
def exec (i : Instr) (s : State) : Host.Outcome State Fault Refusal :=
  match i with
  | .packPhone src => Sys2Proof.Machine.execPackPhone src s
  | .packText => Sys2Proof.Machine.execPackText s
  | .encodePdu => Sys2Proof.Machine.execEncodePdu s
  | .hexFormat => Sys2Proof.Machine.execHexFormat s

end Sys2Proof.Machine
end

