-- ==== Sys2Proof/WellFormed.lean ====
section
/-! DEFINITION. What the spec asks of a command byte (30_encoding.md R50 to R55), one check per
field, and of a command as syntax. -/

namespace Sys2Proof

/-- Field `Z` (bits 7:4) is 0000 (R53). -/
def WellFormed.reservedZero (b : Byte) : Bool := b.extractLsb' 4 4 == 0#4

/-- Field `OP` (bits 2:0) selects an operation: 001, 010, 011 or 100 (R51). -/
def WellFormed.opSelects (b : Byte) : Bool :=
  b.extractLsb' 0 3 == 1#3 || b.extractLsb' 0 3 == 2#3 || b.extractLsb' 0 3 == 3#3
    || b.extractLsb' 0 3 == 4#3

/-- Field `S` (bit 3) is 0 for every OP but PACK_PHONE's 001 (R52). -/
def WellFormed.sourceAllowed (b : Byte) : Bool :=
  b.extractLsb' 3 1 == 0#1 || b.extractLsb' 0 3 == 1#3

/-- A command byte is legal when no field makes it illegal (R55). -/
def WellFormed.commandByte (b : Byte) : Bool :=
  WellFormed.reservedZero b && WellFormed.opSelects b && WellFormed.sourceAllowed b

/-- A command as syntax is always well formed: the only operand that is written in the command is
PACK_PHONE's `S`, and both its values are legal (R54). -/
def Instr.wf : Instr → Bool
  | .packPhone .sc => true
  | .packPhone .da => true
  | .packText => true
  | .encodePdu => true
  | .hexFormat => true

end Sys2Proof
end

