-- ==== Sys2Proof/Decode.lean ====
section
/-! DEFINITION. The decoder of a command byte, total and rejecting by name, and after it the
encoder, both from the encoding tables of 30_encoding.md (R50 to R55). -/

namespace Sys2Proof

/-- Why a command byte is illegal (R55). All three lead to the one response of R97; the name is
that of the first field found wrong, in the order Z, OP, S. -/
inductive DecodeError where
  /-- Field `Z` (bits 7:4) is not 0000 (R53). -/
  | reservedBits
  /-- Field `OP` is 000, 101, 110 or 111 (R51). -/
  | unknownOperation
  /-- `S = 1` with an OP other than PACK_PHONE's (R52). -/
  | straySource
  deriving DecidableEq, Repr

/-- Field `Z`, bits 7:4 (R50). -/
def fieldZ (b : Byte) : BitVec 4 := b.extractLsb' 4 4

/-- Field `S`, bit 3 (R50). -/
def fieldS (b : Byte) : BitVec 1 := b.extractLsb' 3 1

/-- Field `OP`, bits 2:0 (R50). -/
def fieldOp (b : Byte) : BitVec 3 := b.extractLsb' 0 3

/-- The command a byte encodes (R51 to R54), or why it encodes none (R55). A command is exactly
one byte (R57). -/
def decode (b : Byte) : Except DecodeError Instr :=
  if fieldZ b ≠ 0#4 then .error .reservedBits
  else if fieldOp b = 1#3 then .ok (.packPhone (if fieldS b = 0#1 then .sc else .da))
  else if fieldOp b = 2#3 then (if fieldS b = 0#1 then .ok .packText else .error .straySource)
  else if fieldOp b = 3#3 then (if fieldS b = 0#1 then .ok .encodePdu else .error .straySource)
  else if fieldOp b = 4#3 then (if fieldS b = 0#1 then .ok .hexFormat else .error .straySource)
  else .error .unknownOperation

/-- The byte of a command (R54). -/
def encode : Instr → Byte
  | .packPhone .sc => 0x01#8
  | .packPhone .da => 0x09#8
  | .packText => 0x02#8
  | .encodePdu => 0x03#8
  | .hexFormat => 0x04#8

/-- The command read from an opcode-table word: a command is one byte (R50), so a number that does
not fit one byte is no command. -/
def decodeTableWord (_nbits w : Nat) : Option Instr :=
  if w < 256 then
    match decode (BitVec.ofNat 8 w) with
    | .ok i => some i
    | .error _ => none
  else none

end Sys2Proof
end

