-- ==== Sys2Proof/Machine/Flags.lean ====
section
/-! DEFINITION. The block has no flags (10_state.md R26); its one condition indicator is STATUS.
This file gives the STATUS codes (R17, R91) and the bytes in which the host reads the registers
wider than 8 bits (R15, R35). -/

namespace Sys2Proof.Machine

/-- The byte STATUS reads as (R17, R91). -/
def Status.code : Status → Byte
  | .ok => 0x00#8
  | .invalidDigit => 0x01#8
  | .emptyDestination => 0x02#8
  | .textTooLong => 0x03#8
  | .bufferTooSmall => 0x04#8
  | .illegalCommand => 0x05#8

/-- The byte CONFIG reads as (R23): bit 0 is DIGIT_CHECK, bits 7:1 are 0. -/
def configByte : DigitCheck → Byte
  | .strict => 0x00#8
  | .passthrough => 0x01#8

/-- The `_LO` byte of a value: bits 7:0 (R35). -/
def loByte (v : Nat) : Byte := BitVec.ofNat 8 v

/-- The `_HI` byte of a value of at most 16 bits: the bits above 7:0 (R35). Of a 9-bit value it is
bit 8, of a 10-bit value bits 9:8, the rest reading 0 (R15). -/
def hiByte (v : Nat) : Byte := BitVec.ofNat 8 (v >>> 8)

end Sys2Proof.Machine
end

