-- ==== Sys2Proof/Machine/Port.lean ====
section
/-! DEFINITION. The host port: the address map (20_memory.md R33), the register map (10_state.md
R15), host reads and writes (R39 to R41), the CMD write (R16, R97), the reset event (R107), and
the taking of the next port event. -/

namespace Sys2Proof.Machine

/-- A register's host address (R15). -/
def Reg.addr : Reg → Addr
  | .cmd => 0x0600#16
  | .status => 0x0601#16
  | .resultLenLo => 0x0602#16
  | .resultLenHi => 0x0603#16
  | .tpduLenLo => 0x0604#16
  | .tpduLenHi => 0x0605#16
  | .hexCountLo => 0x0606#16
  | .hexCountHi => 0x0607#16
  | .scLen => 0x0608#16
  | .daLen => 0x0609#16
  | .textLen => 0x060A#16
  | .config => 0x060B#16
  | .outCapLo => 0x060C#16
  | .outCapHi => 0x060D#16

/-- All registers, in the order of R15. -/
def Reg.all : List Reg :=
  [.cmd, .status, .resultLenLo, .resultLenHi, .tpduLenLo, .tpduLenHi, .hexCountLo, .hexCountHi,
    .scLen, .daLen, .textLen, .config, .outCapLo, .outCapHi]

/-- What stands at a host address (R33). -/
def regionOf (a : Addr) : Region :=
  if a.toNat < 0x0100 then .buffer .out
  else if a.toNat < 0x0200 then .buffer .scIn
  else if a.toNat < 0x0300 then .buffer .daIn
  else if a.toNat < 0x0400 then .buffer .textIn
  else if a.toNat < 0x0600 then .buffer .hex
  else
    match Reg.all.find? (fun r => r.addr == a) with
    | some r => .register r
    | none => .reserved

/-- The byte a register reads as (R15 to R23). CMD reads 0x00; CONFIG reads the build parameter. -/
def State.readReg (s : State) (dc : DigitCheck) : Reg → Byte
  | .cmd => 0x00#8
  | .status => s.status.code
  | .resultLenLo => loByte s.resultLen.val
  | .resultLenHi => hiByte s.resultLen.val
  | .tpduLenLo => loByte s.tpduLen.val
  | .tpduLenHi => hiByte s.tpduLen.val
  | .hexCountLo => loByte s.hexCount.val
  | .hexCountHi => hiByte s.hexCount.val
  | .scLen => s.scLen
  | .daLen => s.daLen
  | .textLen => s.textLen
  | .config => configByte dc
  | .outCapLo => loByte s.outCap.toNat
  | .outCapHi => hiByte s.outCap.toNat

/-- A host write to a register other than CMD (R15, R21, R22, R41): the read/write registers store,
the read-only ones ignore the write. CMD stores nothing (R16). -/
def State.writeReg (s : State) (v : Byte) : Reg → State
  | .cmd => s
  | .status => s
  | .resultLenLo => s
  | .resultLenHi => s
  | .tpduLenLo => s
  | .tpduLenHi => s
  | .hexCountLo => s
  | .hexCountHi => s
  | .scLen => { s with scLen := v }
  | .daLen => { s with daLen := v }
  | .textLen => { s with textLen := v }
  | .config => s
  | .outCapLo => { s with outCap := (s.outCap.extractLsb' 8 1 ++ v : BitVec 9) }
  | .outCapHi => { s with outCap := (v.extractLsb' 0 1 ++ s.outCap.extractLsb' 0 8 : BitVec 9) }

/-- The byte `MemRead(a, 1)` returns, and the state after it (R33, R39): only a read of a byte never
written takes a draw (R30). -/
def State.memRead (s : State) (dc : DigitCheck) (a : Addr) : Byte × State :=
  match regionOf a with
  | .buffer _ => s.readByte a.toNat
  | .register r => (s.readReg dc r, s)
  | .reserved => (0x00#8, s)

/-- A host read: what it returns is observed (R119). -/
def State.hostRead (s : State) (dc : DigitCheck) (a : Addr) : State :=
  match s.memRead dc a with
  | (v, s1) => { s1 with observed := s1.observed ++ [v] }

/-- A write of byte `v` to CMD (R16): a legal byte runs its command, an illegal one has the response
of R97. -/
def State.command (s : State) (run : Instr → State → Host.Outcome State Fault Refusal)
    (v : Byte) : Host.Outcome State Fault Refusal :=
  match decode v with
  | .ok i => run i s
  | .error _ => .next s.illegalCommand

/-- `MemWrite(a, 1, v)` (R33, R40, R41). -/
def State.hostWrite (s : State) (run : Instr → State → Host.Outcome State Fault Refusal)
    (a : Addr) (v : Byte) : Host.Outcome State Fault Refusal :=
  match regionOf a with
  | .buffer b => .next (if b.hostWritable then s.writeByte a.toNat v else s)
  | .register r => if r = .cmd then s.command run v else .next (s.writeReg v r)
  | .reserved => .next s

/-- The reset event (R107): every register takes its reset value and every buffer byte becomes
unspecified. What is outside the block stays: the events still to come, what the host has read, and
the count of draws, so that later draws are fresh. -/
def State.resetEvent (s : State) : State :=
  { State.reset with draws := s.draws, port := s.port, observed := s.observed }

/-- Take the next port event (R44: each takes effect completely, in order). With none left the block
is idle and holds its state (R106). -/
def State.takeEvent (s : State) (dc : DigitCheck)
    (run : Instr → State → Host.Outcome State Fault Refusal) :
    Host.Outcome State Fault Refusal :=
  match s.port with
  | [] => .next s
  | .read a :: rest => .next (State.hostRead { s with port := rest } dc a)
  | .write a v :: rest => State.hostWrite { s with port := rest } run a v
  | .reset :: rest => .next (State.resetEvent { s with port := rest })

end Sys2Proof.Machine
end

