-- ==== Sys2Proof/Machine/Step.lean ====
section
/-! DEFINITION. One step of the block: its next port event, a CMD write running its whole command
(10_state.md R13, 20_memory.md R44). -/

namespace Sys2Proof.Machine

/-- One step of this hardware. -/
def step (s : State) : Host.Outcome State Fault Refusal :=
  s.takeEvent Config.digitCheck exec

/-- The state whose next port event is the CMD write of the given byte (R16): the block fetches
nothing (R25), so a command comes to run when the host writes it. Log entry 3. -/
def State.withFetchWord (s : State) (_nbits w : Nat) : State :=
  { s with port := .write 0x0600#16 (BitVec.ofNat 8 w) :: s.port }

end Sys2Proof.Machine
end

