-- ==== Sys2Proof/Machine/Builds.lean ====
section
/-! DEFINITION. The block for either value of the build parameter `DIGIT_CHECK`, which a model takes
as an argument (00_scope.md R5, 10_state.md R31). The hardware of this row is the STRICT build. -/

namespace Sys2Proof.Machine

/-- The meaning of a command in the build with the given `DIGIT_CHECK`. -/
def execFor (dc : DigitCheck) (i : Instr) (s : State) : Host.Outcome State Fault Refusal :=
  match i with
  | .packPhone src => .next (packPhoneWith dc src s)
  | .packText => execPackText s
  | .encodePdu => .next (encodePduWith dc s)
  | .hexFormat => execHexFormat s

/-- One step of the build with the given `DIGIT_CHECK`. -/
def stepFor (dc : DigitCheck) (s : State) : Host.Outcome State Fault Refusal :=
  s.takeEvent dc (execFor dc)

end Sys2Proof.Machine
end

