-- ==== Sys2Proof/Machine/HostProgram.lean ====
section
/-! DEFINITION. Host programs: the lines of 30_encoding.md R58, the pseudo-instructions of R59 and
their expansions into port events. -/

namespace Sys2Proof.Machine

/-- The registers wider than 8 bits, which `rd16` names (R59). -/
inductive WideReg where
  | resultLen
  | tpduLen
  | hexCount
  | outCap
  deriving DecidableEq, Repr

/-- One line of a host program (R58) or one pseudo-instruction (R59). -/
inductive HostLine where
  /-- `wr ADDR, VAL`. -/
  | wr (addr : Addr) (v : Byte)
  /-- `rd ADDR`. -/
  | rd (addr : Addr)
  /-- `cmd M`. -/
  | cmd (i : Instr)
  /-- `ld_sc "s"`. -/
  | ldSc (str : List Byte)
  /-- `ld_da "s"`. -/
  | ldDa (str : List Byte)
  /-- `ld_text "s"`. -/
  | ldText (str : List Byte)
  /-- `set_cap N`. -/
  | setCap (n : Nat)
  /-- `rd16 R`. -/
  | rd16 (r : WideReg)
  /-- `rdbuf B, n`. -/
  | rdbuf (b : Buffer) (n : Nat)
  deriving DecidableEq, Repr

/-- The `_LO` register of a wide register (R15). -/
def WideReg.lo : WideReg → Reg
  | .resultLen => .resultLenLo
  | .tpduLen => .tpduLenLo
  | .hexCount => .hexCountLo
  | .outCap => .outCapLo

/-- The `_HI` register of a wide register (R15). -/
def WideReg.hi : WideReg → Reg
  | .resultLen => .resultLenHi
  | .tpduLen => .tpduLenHi
  | .hexCount => .hexCountHi
  | .outCap => .outCapHi

/-- The value of `rd16` from the two bytes it read: `lo | (hi << 8)` (R59). -/
def rd16Value (lo hi : Byte) : Nat := lo.toNat ||| (hi.toNat <<< 8)

/-- Whether the assembler accepts a line (R59): a string has at most 255 characters, and `rdbuf`
names OUT or HEX. That `set_cap N` has `N >> 8` in a byte, and that `rdbuf` stays within 16-bit
addresses, follow from `VAL` being a byte and `ADDR` 16 bits (R58). -/
def HostLine.wf : HostLine → Bool
  | .wr _ _ => true
  | .rd _ => true
  | .cmd _ => true
  | .ldSc str => str.length ≤ 255
  | .ldDa str => str.length ≤ 255
  | .ldText str => str.length ≤ 255
  | .setCap n => n < 65536
  | .rd16 _ => true
  | .rdbuf b n => (b == .out || b == .hex) && b.base + n ≤ 65536

/-- The writes of a string to consecutive addresses (R59). -/
def writesFrom : Nat → List Byte → List PortEvent
  | _, [] => []
  | a, c :: rest => .write (BitVec.ofNat 16 a) c :: writesFrom (a + 1) rest

/-- The reads of consecutive addresses (R59). -/
def readsFrom : Nat → Nat → List PortEvent
  | _, 0 => []
  | a, n + 1 => .read (BitVec.ofNat 16 a) :: readsFrom (a + 1) n

/-- `ld_*`: the string's bytes, then its length register (R59). -/
def loadString (b : Buffer) (lenReg : Reg) (str : List Byte) : List PortEvent :=
  writesFrom b.base str ++ [.write lenReg.addr (BitVec.ofNat 8 str.length)]

/-- The bus transactions a line makes (R58, R59). -/
def HostLine.events : HostLine → List PortEvent
  | .wr a v => [.write a v]
  | .rd a => [.read a]
  | .cmd i => [.write Reg.cmd.addr (encode i)]
  | .ldSc str => loadString .scIn .scLen str
  | .ldDa str => loadString .daIn .daLen str
  | .ldText str => loadString .textIn .textLen str
  | .setCap n =>
    [.write Reg.outCapLo.addr (BitVec.ofNat 8 (n &&& 0xFF)),
      .write Reg.outCapHi.addr (BitVec.ofNat 8 (n >>> 8))]
  | .rd16 r => [.read r.lo.addr, .read r.hi.addr]
  | .rdbuf b n => readsFrom b.base n

/-- A host program's port events; `none` when the assembler rejects a line. -/
def assemble (lines : List HostLine) : Option (List PortEvent) :=
  if lines.all HostLine.wf then some (lines.flatMap HostLine.events) else none

/-- A state with a host program still to run (R119: a run starts from a stated state). -/
def State.withProgram (s : State) (events : List PortEvent) : State :=
  { s with port := s.port ++ events }

end Sys2Proof.Machine
end

