-- ==== Sys2Proof/Safety.lean ====
section
/-! DEFINITION. The terms in which claims are stated: what an operation leaves unchanged, and the
invariant of the block. -/

namespace Sys2Proof.Machine

/-- The registers the host writes and the engine only reads are unchanged (10_state.md R28). -/
structure SameInputRegs (s t : State) : Prop where
  scLen : t.scLen = s.scLen
  daLen : t.daLen = s.daLen
  textLen : t.textLen = s.textLen
  outCap : t.outCap = s.outCap

/-- The host's side of the port is unchanged: what is still to come and what was observed. -/
structure SamePort (s t : State) : Prop where
  port : t.port = s.port
  observed : t.observed = s.observed

/-- The result registers are unchanged. -/
structure SameResults (s t : State) : Prop where
  resultLen : t.resultLen = s.resultLen
  tpduLen : t.tpduLen = s.tpduLen
  hexCount : t.hexCount = s.hexCount

/-- Every buffer byte outside the `n` bytes from host address `a` on holds what it held. -/
def SameBytesOutside (s t : State) (a n : Nat) : Prop :=
  ∀ x, (x < a ∨ a + n ≤ x) → t.peek x = s.peek x

/-- The `n` bytes from host address `a` on have all been written since reset. -/
def WrittenRange (s : State) (a n : Nat) : Prop :=
  ∀ k, k < n → (s.peek (a + k)).isSome = true

/-- The error exit's registers (60_exceptions.md R95). -/
structure FailedWith (t : State) (e : Status) : Prop where
  status : t.status = e
  resultLen : t.resultLen.val = 0
  tpduLen : t.tpduLen.val = 0
  hexCount : t.hexCount.val = 0

/-- The success exit's registers (60_exceptions.md R94). -/
structure FinishedWith (t : State) (len tpdu : Nat) : Prop where
  status : t.status = .ok
  resultLen : t.resultLen.val = len
  tpduLen : t.tpduLen.val = tpdu
  hexCount : t.hexCount.val = 0

/-- The invariant of the block. -/
structure BlockInv (s : State) : Prop where
  /-- The memory is in its canonical form. -/
  memCanonical : Memory.wf s.mem
  /-- Only buffer bytes are held (R33). -/
  memInBuffers : ∀ c ∈ s.mem, c.1 < 0x0600
  /-- The bytes of the result in force were written (R18). -/
  resultWritten : WrittenRange s 0 s.resultLen.val
  /-- The TPDU is a part of the result (R19, R85). -/
  tpduWithinResult : s.tpduLen.val ≤ s.resultLen.val
  /-- HEX_COUNT is 0 or the hex length of the result in force (R20). -/
  hexCountOfResult : s.hexCount.val = 0 ∨ s.hexCount.val = 2 * s.resultLen.val
  /-- While HEX_COUNT is not 0, HEX holds the hex text of the result in force (R113). -/
  hexOfResult : ∀ m b, 2 * m < s.hexCount.val → s.peek m = some b →
    s.peek (0x0400 + 2 * m) = some (hexChar (b >>> 4)) ∧
      s.peek (0x0400 + 2 * m + 1) = some (hexChar (b &&& 0x0F#8))

/-- The commands that pack into OUT and end through the exits of R94 and R95. -/
def Packs : Instr → Prop
  | .packPhone _ => True
  | .packText => True
  | .encodePdu => True
  | .hexFormat => False

/-- The characters a PACK_PHONE of `src` reads (41_phone_number_packer.md R62): written bytes, and
a free byte for each that was never written. -/
def State.phoneBytes (s : State) (src : PhoneSource) : List Byte :=
  (s.readBytes (phoneBuffer src).base (s.phoneLen src)).1

/-- The characters a PACK_TEXT reads (42_seven_bit_text_packer.md R69). -/
def State.textBytes (s : State) : List Byte :=
  (s.readBytes Buffer.textIn.base s.textLen.toNat).1

/-- The state of draws after ENCODE_PDU has read the service-center digits. -/
def State.afterSc (s : State) : State := (s.readBytes Buffer.scIn.base s.scLen.toNat).2

/-- The state of draws after ENCODE_PDU has read both digit strings. -/
def State.afterDa (s : State) : State :=
  (s.afterSc.readBytes Buffer.daIn.base s.daLen.toNat).2

/-- The service-center digits ENCODE_PDU reads, first of its three strings (R82). -/
def State.pduSc (s : State) : List Byte := s.phoneBytes .sc

/-- The destination digits ENCODE_PDU reads, after those of the service center (R82). -/
def State.pduDa (s : State) : List Byte := s.afterSc.phoneBytes .da

/-- The text ENCODE_PDU reads, after both digit strings (R82). -/
def State.pduText (s : State) : List Byte := s.afterDa.textBytes

/-- The size of fields 1 to 3 of R75: the service-center field (R81, R85). -/
def State.scFieldSize (s : State) : Nat :=
  if s.scLen.toNat = 0 then 1 else 2 + ceilDiv s.scLen.toNat 2

/-- The total length of the PDU (R81). -/
def State.pduTotal (s : State) : Nat :=
  s.scFieldSize + 8 + ceilDiv s.daLen.toNat 2 + ceilDiv (7 * s.textLen.toNat) 8

/-- Fields 1 to 13 of the PDU, in the order of R75. -/
def State.pduLayout (s : State) : List (Option Byte) :=
  (if s.scLen.toNat = 0 then [some 0x00#8]
    else [some s.scLen, some 0x91#8] ++ semiOctets s.pduSc)
  ++ [some 0x11#8, some 0x00#8]
  ++ [some s.daLen, some 0x91#8] ++ semiOctets s.pduDa
  ++ [some 0x00#8, some 0x00#8, some 0xB0#8]
  ++ [some s.textLen] ++ (pack7 s.pduText).map some

/-- Some character of the string is not a digit. -/
def HasNonDigit (cs : List Byte) : Prop :=
  ∃ k, k < cs.length ∧ ¬ (0x30 ≤ (cs.getD k 0#8).toNat ∧ (cs.getD k 0#8).toNat ≤ 0x39)

end Sys2Proof.Machine
end

