-- ==== Sys2Proof/Certificates/Slice0/Obligations.lean ====
section
/-! DEFINITION. The statements for the provers, each from a numbered rule of spec/ or derived from
its sections. No statement rests on the value of a free byte or of the model's own fields at reset. -/

open Sys2Proof Sys2Proof.Machine

/-! ### Encoding (30_encoding.md) -/

/-- R54: the five legal bytes, what each encodes, that no other byte is legal, and the masks by
which a decoder selects the four rows. -/
def Obligations.LegalCommandBytesAreTheFive : Prop :=
  decode 0b00000001#8 = .ok (.packPhone .sc) ∧
  decode 0b00001001#8 = .ok (.packPhone .da) ∧
  decode 0b00000010#8 = .ok .packText ∧
  decode 0b00000011#8 = .ok .encodePdu ∧
  decode 0b00000100#8 = .ok .hexFormat ∧
  (∀ b : Byte, (∃ i, decode b = .ok i) →
    b = 0x01#8 ∨ b = 0x09#8 ∨ b = 0x02#8 ∨ b = 0x03#8 ∨ b = 0x04#8) ∧
  (∀ b : Byte, (∃ src, decode b = .ok (.packPhone src)) ↔ b &&& 0xF7#8 = 0x01#8) ∧
  (∀ b : Byte, decode b = .ok .packText ↔ b = 0x02#8) ∧
  (∀ b : Byte, decode b = .ok .encodePdu ↔ b = 0x03#8) ∧
  (∀ b : Byte, decode b = .ok .hexFormat ↔ b = 0x04#8)

/-- Decoding and encoding are inverse to each other. -/
def Obligations.DecodeAndEncodeAreInverse : Prop :=
  (∀ i : Instr, decode (encode i) = .ok i) ∧
  (∀ (b : Byte) (i : Instr), decode b = .ok i → encode i = b)

/-- R55: the illegal bytes are the 251 with `Z != 0000`, or `OP` in 000, 101, 110, 111, or `S = 1`
with `OP != 001`; writing one to CMD runs the response of R97. -/
def Obligations.IllegalBytesByField : Prop :=
  (∀ b : Byte, (∃ e, decode b = .error e) ↔
    (b.toNat / 16 ≠ 0 ∨ b.toNat % 8 = 0 ∨ b.toNat % 8 = 5 ∨ b.toNat % 8 = 6 ∨ b.toNat % 8 = 7 ∨
      (b.toNat / 8 % 2 = 1 ∧ b.toNat % 8 ≠ 1))) ∧
  ((List.range 256).filter fun n => (decodeTableWord 8 n).isNone).length = 251 ∧
  (∀ (s : State) (v : Byte) (e : DecodeError) (rest : List PortEvent), decode v = .error e →
    s.port = .write 0x0600#16 v :: rest →
    step s = .next (State.illegalCommand { s with port := rest }))

/-! ### The step and the port (10_state.md, 20_memory.md, 60_exceptions.md, 70_reset_and_hazards.md) -/

/-- A host write to CMD of a byte that decodes to a command runs exactly that command, after the
access has left the port. -/
def Obligations.StepRunsDecodedCommand : Prop :=
  ∀ (s : State) (v : Byte) (i : Instr) (rest : List PortEvent),
    s.port = .write 0x0600#16 v :: rest → decode v = .ok i → i.wf = true →
    step s = exec i { s with port := rest }

/-- R97: an illegal byte sets STATUS to 5 and changes nothing else; the host then reads 5 from
STATUS. -/
def Obligations.IllegalByteSetsStatusOnly : Prop :=
  ∀ (s : State) (v : Byte) (e : DecodeError) (rest : List PortEvent),
    s.port = .write 0x0600#16 v :: rest → decode v = .error e →
    step s = .next { s with port := rest, status := .illegalCommand } ∧
    (∀ (dc : DigitCheck),
      State.memRead { s with port := rest, status := .illegalCommand } dc 0x0601#16 =
        (0x05#8, { s with port := rest, status := .illegalCommand }))

/-- What a host read returns: each register of the map at its address, a written buffer byte, and
0x00 for a reserved address. Nothing but the port and the observation changes. -/
def Obligations.HostReadReturnsTheMap : Prop :=
  ∀ (s : State) (a : Addr) (v : Byte) (rest : List PortEvent), s.port = .read a :: rest →
    ((a, v) ∈ [(0x0600#16, 0x00#8), (0x0601#16, s.status.code),
      (0x0602#16, BitVec.ofNat 8 (s.resultLen.val % 256)),
      (0x0603#16, BitVec.ofNat 8 (s.resultLen.val / 256)),
      (0x0604#16, BitVec.ofNat 8 (s.tpduLen.val % 256)),
      (0x0605#16, BitVec.ofNat 8 (s.tpduLen.val / 256)),
      (0x0606#16, BitVec.ofNat 8 (s.hexCount.val % 256)),
      (0x0607#16, BitVec.ofNat 8 (s.hexCount.val / 256)),
      (0x0608#16, s.scLen), (0x0609#16, s.daLen), (0x060A#16, s.textLen), (0x060B#16, 0x00#8),
      (0x060C#16, BitVec.ofNat 8 (s.outCap.toNat % 256)),
      (0x060D#16, BitVec.ofNat 8 (s.outCap.toNat / 256))] ∨
     (0x060E ≤ a.toNat ∧ v = 0x00#8) ∨
     (a.toNat < 0x0600 ∧ s.peek a.toNat = some v)) →
    step s = .next { s with port := rest, observed := s.observed ++ [v] }

/-- R39: reading an address any number of times, with no write or command between the reads (so that
only the observation, the events to come and the count of draws may differ), returns the same byte
and changes nothing but what was observed. The exception is a buffer byte never written: each read of
it is the next draw. -/
def Obligations.HostReadsAreIdempotent : Prop :=
  ∀ (s : State) (a : Addr),
    (0x0600 ≤ a.toNat ∨ (s.peek a.toNat).isSome = true →
      ∃ v, ∀ (obs : List Byte) (rest : List PortEvent) (d : Nat),
        step { s with port := .read a :: rest, observed := obs, draws := d } =
          .next { s with port := rest, observed := obs ++ [v], draws := d }) ∧
    (a.toNat < 0x0600 ∧ s.peek a.toNat = none →
      ∀ (obs : List Byte) (rest : List PortEvent) (d : Nat),
        step { s with port := .read a :: rest, observed := obs, draws := d } =
          .next { s with port := rest, observed := obs ++ [Config.freeByte d], draws := d + 1 })

/-- A host write to SC_IN, DA_IN or TEXT_IN stores the byte, leaves every other byte, and has no
other effect. -/
def Obligations.HostWriteStoresInputByte : Prop :=
  ∀ (s : State) (a : Addr) (v : Byte) (rest : List PortEvent),
    s.port = .write a v :: rest → 0x0100 ≤ a.toNat → a.toNat < 0x0400 →
    ∃ t, step s = .next t ∧ t = { s with port := rest, mem := t.mem } ∧
      t.peek a.toNat = some v ∧ SameBytesOutside s t a.toNat 1 ∧
      (Memory.wf s.mem → Memory.wf t.mem)

/-- A host write to SC_LEN, DA_LEN or TEXT_LEN stores the byte, every 8-bit value, and has no other
effect. -/
def Obligations.HostWriteStoresLength : Prop :=
  ∀ (s : State) (v : Byte) (rest : List PortEvent),
    (s.port = .write 0x0608#16 v :: rest → step s = .next { s with port := rest, scLen := v }) ∧
    (s.port = .write 0x0609#16 v :: rest → step s = .next { s with port := rest, daLen := v }) ∧
    (s.port = .write 0x060A#16 v :: rest → step s = .next { s with port := rest, textLen := v })

/-- R22: OUT_CAP_LO sets bits 7:0, OUT_CAP_HI sets bit 8 from data bit 0 and ignores data bits 7:1;
the two together store and read back every 9-bit value; the commands use `min(OUT_CAP, 256)`. -/
def Obligations.OutCapIsWrittenInHalves : Prop :=
  (∀ (s : State) (v : Byte) (rest : List PortEvent),
    (s.port = .write 0x060C#16 v :: rest →
      ∃ c : BitVec 9, c.toNat = 256 * (s.outCap.toNat / 256) + v.toNat ∧
        step s = .next { s with port := rest, outCap := c }) ∧
    (s.port = .write 0x060D#16 v :: rest →
      ∃ c : BitVec 9, c.toNat = 256 * (v.toNat % 2) + s.outCap.toNat % 256 ∧
        step s = .next { s with port := rest, outCap := c })) ∧
  (∀ (s : State) (dc : DigitCheck), rd16Value (s.memRead dc 0x060C#16).1 (s.memRead dc 0x060D#16).1
    = s.outCap.toNat) ∧
  (∀ s : State, s.effCap = if s.outCap.toNat ≤ 256 then s.outCap.toNat else 256)

/-- R41: a host write to a read-only or reserved address changes no state; reads of reserved
addresses and of CMD return 0x00; none of them is an error. -/
def Obligations.IgnoredWritesChangeNothing : Prop :=
  (∀ (s : State) (a : Addr) (v : Byte) (rest : List PortEvent), s.port = .write a v :: rest →
    (a.toNat < 0x0100 ∨ (0x0400 ≤ a.toNat ∧ a.toNat < 0x0600) ∨
      (0x0601 ≤ a.toNat ∧ a.toNat ≤ 0x0607) ∨ a.toNat = 0x060B ∨ 0x060E ≤ a.toNat) →
    step s = .next { s with port := rest }) ∧
  (∀ (s : State) (a : Addr) (rest : List PortEvent), s.port = .read a :: rest →
    (a.toNat = 0x0600 ∨ 0x060E ≤ a.toNat) →
    step s = .next { s with port := rest, observed := s.observed ++ [0x00#8] })

/-- Every step of the block answers a next state: nothing is fatal, no access is a bus error, no
command hangs, on either build. -/
def Obligations.EveryStepAnswersANextState : Prop :=
  (∀ s : State, ∃ t, step s = .next t) ∧
  (∀ (dc : DigitCheck) (s : State), ∃ t, stepFor dc s = .next t)

/-- The STRICT build is the machine of this row. -/
def Obligations.StrictBuildIsThisHardware : Prop :=
  ∀ (s : State), stepFor .strict s = step s

/-- R29: the reset value of every register. -/
def Obligations.ResetGivesEveryRegisterItsValue : Prop :=
  State.reset.status.code = 0x00#8 ∧ State.reset.resultLen.val = 0 ∧
  State.reset.tpduLen.val = 0 ∧ State.reset.hexCount.val = 0 ∧ State.reset.scLen = 0#8 ∧
  State.reset.daLen = 0#8 ∧ State.reset.textLen = 0#8 ∧ State.reset.outCap.toNat = 256 ∧
  (State.reset.memRead Config.digitCheck 0x060B#16).1 = 0x00#8

/-- The reset event gives every register its reset value and makes every buffer byte unspecified
(unwritten). What lies outside the block (the events to come, the observation) and the count of
draws stay: that is the model's choice (log entries 2 and 4). -/
def Obligations.ResetEventRestoresReset : Prop :=
  ∀ (s : State) (rest : List PortEvent), s.port = .reset :: rest →
    ∃ t, step s = .next t ∧
      t.status = State.reset.status ∧ t.resultLen = State.reset.resultLen ∧
      t.tpduLen = State.reset.tpduLen ∧ t.hexCount = State.reset.hexCount ∧
      t.scLen = State.reset.scLen ∧ t.daLen = State.reset.daLen ∧
      t.textLen = State.reset.textLen ∧ t.outCap = State.reset.outCap ∧
      (∀ a, t.peek a = none) ∧ t.port = rest ∧ t.observed = s.observed ∧ t.draws = s.draws

/-- R23: CONFIG reads the build parameter, 0 for STRICT and 1 for PASSTHROUGH, whatever the state;
on this hardware a host read of it returns 0x00. -/
def Obligations.ConfigReadsTheBuildParameter : Prop :=
  (∀ s : State, State.memRead s .strict 0x060B#16 = (0x00#8, s)) ∧
  (∀ s : State, State.memRead s .passthrough 0x060B#16 = (0x01#8, s)) ∧
  (∀ (s : State) (rest : List PortEvent), s.port = .read 0x060B#16 :: rest →
    step s = .next { s with port := rest, observed := s.observed ++ [0x00#8] }) ∧
  (∀ (s : State) (v : Byte) (rest : List PortEvent), s.port = .write 0x060B#16 v :: rest →
    step s = .next { s with port := rest })

/-- The registers wider than 8 bits read little-endian: `_LO` and `_HI` together are the value. -/
def Obligations.WideRegistersReadLittleEndian : Prop :=
  ∀ (s : State) (dc : DigitCheck),
    rd16Value (s.memRead dc WideReg.resultLen.lo.addr).1 (s.memRead dc WideReg.resultLen.hi.addr).1
      = s.resultLen.val ∧
    rd16Value (s.memRead dc WideReg.tpduLen.lo.addr).1 (s.memRead dc WideReg.tpduLen.hi.addr).1
      = s.tpduLen.val ∧
    rd16Value (s.memRead dc WideReg.hexCount.lo.addr).1 (s.memRead dc WideReg.hexCount.hi.addr).1
      = s.hexCount.val ∧
    rd16Value (s.memRead dc WideReg.outCap.lo.addr).1 (s.memRead dc WideReg.outCap.hi.addr).1
      = s.outCap.toNat

/-- Without a port event the block is idle and holds its state. -/
def Obligations.IdleBlockHoldsItsState : Prop :=
  ∀ (s : State), s.port = [] → step s = .next s

/-! ### The exits and the frames (60_exceptions.md, 10_state.md R28, 20_memory.md R37, R42) -/

/-- R95: the error exit of PACK_PHONE, PACK_TEXT and ENCODE_PDU makes OUT[0 .. eff_cap-1] fresh
draws, sets the code, zeroes the result registers, and leaves OUT at `eff_cap` and above, HEX and
every input. -/
def Obligations.ErrorExitDiscardsOutAndResults : Prop :=
  ∀ (i : Instr) (s t : State), Packs i → exec i s = .next t → t.status ≠ .ok →
    (t.status = .invalidDigit ∨ t.status = .emptyDestination ∨ t.status = .textTooLong ∨
      t.status = .bufferTooSmall) ∧
    t.resultLen.val = 0 ∧ t.tpduLen.val = 0 ∧ t.hexCount.val = 0 ∧
    (∃ d, s.draws ≤ d ∧ t.draws = d + s.effCap ∧
      ∀ j, j < s.effCap → t.peek j = some (Config.freeByte (d + j))) ∧
    SameBytesOutside s t 0 s.effCap ∧ SameInputRegs s t ∧ SamePort s t

/-- R94: the success exit of PACK_PHONE, PACK_TEXT and ENCODE_PDU leaves RESULT_LEN bytes written
at OUT[0 ..], every byte at or above RESULT_LEN and all of HEX unchanged, HEX_COUNT 0, and TPDU_LEN
0 but for ENCODE_PDU. -/
def Obligations.SuccessExitKeepsTheRest : Prop :=
  ∀ (i : Instr) (s t : State), Packs i → exec i s = .next t → t.status = .ok →
    WrittenRange t 0 t.resultLen.val ∧ SameBytesOutside s t 0 t.resultLen.val ∧
    t.hexCount.val = 0 ∧ (i ≠ .encodePdu → t.tpduLen.val = 0) ∧
    t.resultLen.val ≤ s.effCap ∧ SameInputRegs s t ∧ SamePort s t

/-- The frame of PACK_PHONE, PACK_TEXT and ENCODE_PDU, however they end: the input registers, the
port and every byte outside OUT[0 .. eff_cap-1] are unchanged. -/
def Obligations.PackingCommandsFrame : Prop :=
  ∀ (i : Instr) (s t : State), Packs i → exec i s = .next t →
    SameInputRegs s t ∧ SamePort s t ∧ SameBytesOutside s t 0 s.effCap

/-- The frame of HEX_FORMAT: RESULT_LEN, TPDU_LEN, the input registers, the port and every byte
outside HEX[0 .. 2*RESULT_LEN-1] are unchanged. -/
def Obligations.HexFormatFrame : Prop :=
  ∀ (s t : State), exec .hexFormat s = .next t →
    t.resultLen = s.resultLen ∧ t.tpduLen = s.tpduLen ∧ SameInputRegs s t ∧ SamePort s t ∧
    SameBytesOutside s t 0x0400 (2 * s.resultLen.val)

/-- R28: no command, legal or illegal, writes SC_IN, DA_IN, TEXT_IN, SC_LEN, DA_LEN, TEXT_LEN,
OUT_CAP or CONFIG. -/
def Obligations.EngineNeverWritesInputs : Prop :=
  (∀ (i : Instr) (s t : State), exec i s = .next t →
    SameInputRegs s t ∧ (∀ x, 0x0100 ≤ x → x < 0x0400 → t.peek x = s.peek x) ∧
    (∀ dc, (t.memRead dc 0x060B#16).1 = (s.memRead dc 0x060B#16).1)) ∧
  (∀ (s t : State) (v : Byte) (rest : List PortEvent),
    s.port = .write 0x0600#16 v :: rest → step s = .next t →
    SameInputRegs s t ∧ (∀ x, 0x0100 ≤ x → x < 0x0400 → t.peek x = s.peek x))

/-- R20: PACK_PHONE, PACK_TEXT and ENCODE_PDU set HEX_COUNT to 0 on success and on error;
HEX_FORMAT sets it to twice RESULT_LEN; an illegal byte leaves it; no host write but one to CMD
changes it; it is at most 512. -/
def Obligations.HexCountFollowsTheCommands : Prop :=
  (∀ (i : Instr) (s t : State), Packs i → exec i s = .next t → t.hexCount.val = 0) ∧
  (∀ (s t : State), exec .hexFormat s = .next t → t.hexCount.val = 2 * s.resultLen.val) ∧
  (∀ (s t : State) (v : Byte) (e : DecodeError) (rest : List PortEvent), decode v = .error e →
    s.port = .write 0x0600#16 v :: rest → step s = .next t → t.hexCount = s.hexCount) ∧
  (∀ (s t : State) (a : Addr) (v : Byte) (rest : List PortEvent), a ≠ 0x0600#16 →
    s.port = .write a v :: rest → step s = .next t → t.hexCount = s.hexCount) ∧
  (∀ s : State, s.hexCount.val ≤ 512)

/-- The status codes and which command ends with which. -/
def Obligations.StatusOfEachCommand : Prop :=
  (Status.ok.code = 0x00#8 ∧ Status.invalidDigit.code = 0x01#8 ∧
    Status.emptyDestination.code = 0x02#8 ∧ Status.textTooLong.code = 0x03#8 ∧
    Status.bufferTooSmall.code = 0x04#8 ∧ Status.illegalCommand.code = 0x05#8) ∧
  (∀ (src : PhoneSource) (s t : State), exec (.packPhone src) s = .next t →
    t.status = .ok ∨ t.status = .bufferTooSmall ∨ t.status = .invalidDigit) ∧
  (∀ (s t : State), exec .packText s = .next t → t.status = .ok ∨ t.status = .bufferTooSmall) ∧
  (∀ (s t : State), exec .encodePdu s = .next t → t.status ≠ .illegalCommand) ∧
  (∀ (s t : State), exec .hexFormat s = .next t → t.status = .ok)

/-! ### PACK_PHONE (41_phone_number_packer.md) -/

/-- R65 with the packing of R62: the capacity check first, then the digits, else the semi-octets at
OUT[0], for both values of `S`. The last clause is the PASSTHROUGH build's: INVALID_DIGIT is for
STRICT only. -/
def Obligations.PackPhonePacksDigits : Prop :=
  (∀ (src : PhoneSource) (s : State),
    (s.effCap < ceilDiv (s.phoneLen src) 2 →
      ∃ t, exec (.packPhone src) s = .next t ∧ FailedWith t .bufferTooSmall) ∧
    (ceilDiv (s.phoneLen src) 2 ≤ s.effCap → HasNonDigit (s.phoneBytes src) →
      ∃ t, exec (.packPhone src) s = .next t ∧ FailedWith t .invalidDigit) ∧
    (ceilDiv (s.phoneLen src) 2 ≤ s.effCap → ¬ HasNonDigit (s.phoneBytes src) →
      ∃ t, exec (.packPhone src) s = .next t ∧
        FinishedWith t (ceilDiv (s.phoneLen src) 2) 0 ∧
        (∀ m, m < ceilDiv (s.phoneLen src) 2 →
          t.peek m = some (BitVec.ofNat 8
            ((((s.phoneBytes src).getD (2 * m) 0#8).toNat - 0x30) +
              16 * (if 2 * m + 1 < s.phoneLen src
                then ((s.phoneBytes src).getD (2 * m + 1) 0#8).toNat - 0x30 else 0xF)))) ∧
        SameBytesOutside s t 0 (ceilDiv (s.phoneLen src) 2))) ∧
  (∀ (src : PhoneSource) (s : State),
    (s.effCap < ceilDiv (s.phoneLen src) 2 →
      ∃ t, execFor .passthrough (.packPhone src) s = .next t ∧ FailedWith t .bufferTooSmall) ∧
    (ceilDiv (s.phoneLen src) 2 ≤ s.effCap →
      ∃ t, execFor .passthrough (.packPhone src) s = .next t ∧
        FinishedWith t (ceilDiv (s.phoneLen src) 2) 0))

/-- The characters a command reads: a written byte of an input buffer is read as it stands, by
PACK_PHONE, PACK_TEXT and ENCODE_PDU alike. -/
def Obligations.CommandsReadTheWrittenInputs : Prop :=
  ∀ (s : State) (k : Nat) (b : Byte),
    (k < s.scLen.toNat → s.peek (0x0100 + k) = some b →
      (s.phoneBytes .sc).getD k 0#8 = b ∧ s.pduSc.getD k 0#8 = b) ∧
    (k < s.daLen.toNat → s.peek (0x0200 + k) = some b →
      (s.phoneBytes .da).getD k 0#8 = b ∧ s.pduDa.getD k 0#8 = b) ∧
    (k < s.textLen.toNat → s.peek (0x0300 + k) = some b →
      s.textBytes.getD k 0#8 = b ∧ s.pduText.getD k 0#8 = b)

/-- A run of bytes never written since reset is read as fresh draws, one for each byte. -/
def Obligations.UnwrittenBytesReadAsFreshDraws : Prop :=
  ∀ (s : State) (a n : Nat), (∀ k, k < n → s.peek (a + k) = none) →
    (s.readBytes a n).2 = { s with draws := s.draws + n } ∧
    ∀ k, k < n → (s.readBytes a n).1.getD k 0#8 = Config.freeByte (s.draws + k)

/-- R64: PackDigits on `n` characters, when it raises nothing, writes exactly `ceil_div(n, 2)` bytes
at any output position, and no byte outside them: none for `n = 0`, 128 for `n = 255`, and no more
than that for any length a register holds. -/
def Obligations.PackDigitsWritesItsLength : Prop :=
  (∀ (dc : DigitCheck) (src n p q : Nat) (s t : State), packDigits dc src n p s = .reached q t →
    q = p + ceilDiv n 2 ∧ WrittenRange t p (ceilDiv n 2) ∧ SameBytesOutside s t p (ceilDiv n 2)) ∧
  ceilDiv 0 2 = 0 ∧ ceilDiv 255 2 = 128 ∧ ∀ n, n ≤ 255 → ceilDiv n 2 ≤ 128

/-- R67: the empty digit string packs to 0 bytes without an error, for every OUT_CAP and both
values of `S`; only ENCODE_PDU ends with EMPTY_DESTINATION, and it does for an empty destination. -/
def Obligations.PackPhoneAcceptsTheEmptyString : Prop :=
  (∀ (src : PhoneSource) (s : State), s.phoneLen src = 0 →
    ∃ t, exec (.packPhone src) s = .next t ∧ FinishedWith t 0 0 ∧ t.mem = s.mem) ∧
  (∀ (i : Instr) (s t : State), exec i s = .next t → t.status = .emptyDestination →
    i = .encodePdu) ∧
  (∀ s : State, s.daLen.toNat = 0 →
    ∃ t, exec .encodePdu s = .next t ∧ FailedWith t .emptyDestination)

/-- The PASSTHROUGH build's PACK_PHONE: it never raises INVALID_DIGIT (nor does ENCODE_PDU); a pair
with a non-digit becomes a draw, every other byte is packed as under STRICT, and the length is the
same. -/
def Obligations.PassthroughDrawsForNonDigits : Prop :=
  (∀ (src : PhoneSource) (s : State), ceilDiv (s.phoneLen src) 2 ≤ s.effCap →
    ∃ t, execFor .passthrough (.packPhone src) s = .next t ∧
      FinishedWith t (ceilDiv (s.phoneLen src) 2) 0 ∧
      SameBytesOutside s t 0 (ceilDiv (s.phoneLen src) 2) ∧
      (∀ m, 2 * m + 1 < s.phoneLen src →
        (isDigit ((s.phoneBytes src).getD (2 * m) 0#8) = true ∧
            isDigit ((s.phoneBytes src).getD (2 * m + 1) 0#8) = true →
          t.peek m = some (BitVec.ofNat 8
            ((((s.phoneBytes src).getD (2 * m) 0#8).toNat - 0x30) +
              16 * (((s.phoneBytes src).getD (2 * m + 1) 0#8).toNat - 0x30)))) ∧
        (¬ (isDigit ((s.phoneBytes src).getD (2 * m) 0#8) = true ∧
            isDigit ((s.phoneBytes src).getD (2 * m + 1) 0#8) = true) →
          ∃ d, s.draws ≤ d ∧ t.peek m = some (Config.freeByte d))) ∧
      (∀ m, 2 * m + 1 = s.phoneLen src →
        (isDigit ((s.phoneBytes src).getD (2 * m) 0#8) = true →
          t.peek m = some (BitVec.ofNat 8
            ((((s.phoneBytes src).getD (2 * m) 0#8).toNat - 0x30) + 16 * 0xF))) ∧
        (isDigit ((s.phoneBytes src).getD (2 * m) 0#8) = false →
          ∃ d, s.draws ≤ d ∧ t.peek m = some (Config.freeByte d)))) ∧
  (∀ (i : Instr) (s t : State), execFor .passthrough i s = .next t → t.status ≠ .invalidDigit)

/-- Unpacking the semi-octets of an even-length digit string, low nibble first, gives the string
back. -/
def Obligations.SemiOctetsUnpackToTheDigits : Prop :=
  ∀ cs : List Byte, cs.length % 2 = 0 → (∀ c ∈ cs, 0x30 ≤ c.toNat ∧ c.toNat ≤ 0x39) →
    (semiOctets cs).flatMap (fun o => match o with
      | some b => [(b &&& 0x0F#8) + 0x30#8, (b >>> 4) + 0x30#8]
      | none => []) = cs

/-! ### PACK_TEXT (42_seven_bit_text_packer.md) -/

/-- R72: BUFFER_TOO_SMALL exactly when `ceil_div(7n, 8) > eff_cap`; else the packed text at OUT[0],
with no limit on the 8-bit length. -/
def Obligations.PackTextPacksTheText : Prop :=
  ∀ s : State,
    (s.effCap < ceilDiv (7 * s.textLen.toNat) 8 →
      ∃ t, exec .packText s = .next t ∧ FailedWith t .bufferTooSmall) ∧
    (ceilDiv (7 * s.textLen.toNat) 8 ≤ s.effCap →
      ∃ t, exec .packText s = .next t ∧
        FinishedWith t (ceilDiv (7 * s.textLen.toNat) 8) 0 ∧
        (∀ j, j < ceilDiv (7 * s.textLen.toNat) 8 →
          t.peek j = some ((pack7 s.textBytes).getD j 0#8)) ∧
        SameBytesOutside s t 0 (ceilDiv (7 * s.textLen.toNat) 8))

/-- The loop of Pack7 is the least-significant-bit-first septet stream: bit `b` of byte `j` is stream
bit `8j + b`, where stream bit `7t + u` is bit `u` of character `t`, and the bits past the last
character are 0. -/
def Obligations.Pack7IsTheSeptetStream : Prop :=
  ∀ (cs : List Byte) (j b : Nat), j < ceilDiv (7 * cs.length) 8 → b < 8 →
    ((pack7 cs).getD j 0#8).getLsbD b =
      (decide (8 * j + b < 7 * cs.length) &&
        (cs.getD ((8 * j + b) / 7) 0#8).getLsbD ((8 * j + b) % 7))

/-- R71: Pack7 at any output position writes exactly `ceil_div(7n, 8)` bytes and no byte outside
them, with the lengths the rule lists. -/
def Obligations.Pack7WritesItsLength : Prop :=
  (∀ (n p : Nat) (s : State), ∃ t, packSeptets n p s = .reached (p + ceilDiv (7 * n) 8) t ∧
    WrittenRange t p (ceilDiv (7 * n) 8) ∧ SameBytesOutside s t p (ceilDiv (7 * n) 8)) ∧
  ceilDiv (7 * 0) 8 = 0 ∧ ceilDiv (7 * 1) 8 = 1 ∧ ceilDiv (7 * 7) 8 = 7 ∧ ceilDiv (7 * 8) 8 = 7 ∧
  ceilDiv (7 * 160) 8 = 140 ∧ ceilDiv (7 * 255) 8 = 224

/-- Only the low 7 bits of each text byte matter to PACK_TEXT: with texts that agree there, the
outcome and the packed bytes are the same. -/
def Obligations.PackTextIgnoresTheTopBit : Prop :=
  ∀ s s' : State, s'.textLen = s.textLen → s'.outCap = s.outCap →
    (∀ k, k < s.textLen.toNat → ∃ b b', s.peek (0x0300 + k) = some b ∧
      s'.peek (0x0300 + k) = some b' ∧ b.toNat % 128 = b'.toNat % 128) →
    ∃ t t', exec .packText s = .next t ∧ exec .packText s' = .next t' ∧
      t'.status = t.status ∧ t'.resultLen = t.resultLen ∧
      ∀ j, j < t.resultLen.val → t'.peek j = t.peek j

/-- With OUT_CAP at 256 (or more), or at least 224, PACK_TEXT never fails. -/
def Obligations.PackTextNeverFailsAtFullCapacity : Prop :=
  ∀ s : State, 224 ≤ s.outCap.toNat → ∃ t, exec .packText s = .next t ∧ t.status = .ok

/-! ### ENCODE_PDU (43_pdu_assembler.md) -/

/-- R75: a successful ENCODE_PDU leaves the thirteen fields of the layout in OUT, in order, whenever
the arguments are valid and the PDU fits; RESULT_LEN is the total. Whenever it ends OK, that layout
is what stands in OUT[0 .. RESULT_LEN-1]. -/
def Obligations.EncodePduWritesTheLayout : Prop :=
  (∀ s : State, s.daLen.toNat ≠ 0 → s.textLen.toNat ≤ 160 → ¬ HasNonDigit s.pduSc →
    ¬ HasNonDigit s.pduDa → s.pduTotal ≤ s.effCap →
    ∃ t, exec .encodePdu s = .next t ∧
      FinishedWith t s.pduTotal (s.pduTotal - s.scFieldSize) ∧
      s.pduLayout.length = s.pduTotal ∧
      (∀ j, j < s.pduTotal → t.peek j = s.pduLayout.getD j none) ∧
      SameBytesOutside s t 0 s.pduTotal) ∧
  (∀ (s t : State), exec .encodePdu s = .next t → t.status = .ok →
    t.resultLen.val = s.pduTotal ∧
    ∀ j, j < t.resultLen.val → t.peek j = s.pduLayout.getD j none)

/-- ENCODE_PDU ends OK exactly when the destination is not empty, the text has at most 160
characters, every digit is a digit and the total fits; given the first three it ends
BUFFER_TOO_SMALL exactly when the total does not fit. -/
def Obligations.EncodePduSucceedsExactly : Prop :=
  ∀ (s t : State), exec .encodePdu s = .next t →
    (t.status = .ok ↔ (1 ≤ s.daLen.toNat ∧ s.textLen.toNat ≤ 160 ∧
      (¬ HasNonDigit s.pduSc ∧ ¬ HasNonDigit s.pduDa) ∧ s.pduTotal ≤ s.effCap)) ∧
    (1 ≤ s.daLen.toNat → s.textLen.toNat ≤ 160 → ¬ HasNonDigit s.pduSc → ¬ HasNonDigit s.pduDa →
      (t.status = .bufferTooSmall ↔ s.effCap < s.pduTotal))

/-- The argument checks: EMPTY_DESTINATION before everything else, then TEXT_TOO_LONG. -/
def Obligations.EncodePduArgumentChecks : Prop :=
  ∀ s : State,
    (s.daLen.toNat = 0 → ∃ t, exec .encodePdu s = .next t ∧ FailedWith t .emptyDestination) ∧
    (s.daLen.toNat ≠ 0 → 160 < s.textLen.toNat →
      ∃ t, exec .encodePdu s = .next t ∧ FailedWith t .textTooLong)

/-- Precedence of the digit and capacity checks after the argument checks have passed: a bad service
center is reported if step 1 fits, else BUFFER_TOO_SMALL; with a good one, a bad destination is
reported if steps 1 to 3 fit, else BUFFER_TOO_SMALL. -/
def Obligations.EncodePduDigitErrorPrecedence : Prop :=
  ∀ s : State, s.daLen.toNat ≠ 0 → s.textLen.toNat ≤ 160 →
    (HasNonDigit s.pduSc → s.scFieldSize ≤ s.effCap →
      ∃ t, exec .encodePdu s = .next t ∧ FailedWith t .invalidDigit) ∧
    (HasNonDigit s.pduSc → s.effCap < s.scFieldSize →
      ∃ t, exec .encodePdu s = .next t ∧ FailedWith t .bufferTooSmall) ∧
    (¬ HasNonDigit s.pduSc → HasNonDigit s.pduDa →
      s.scFieldSize + 4 + ceilDiv s.daLen.toNat 2 ≤ s.effCap →
      ∃ t, exec .encodePdu s = .next t ∧ FailedWith t .invalidDigit) ∧
    (¬ HasNonDigit s.pduSc → HasNonDigit s.pduDa →
      s.effCap < s.scFieldSize + 4 + ceilDiv s.daLen.toNat 2 →
      ∃ t, exec .encodePdu s = .next t ∧ FailedWith t .bufferTooSmall)

/-- The TPDU length a successful ENCODE_PDU reports: the result without the service-center field,
which is `8 + ceil_div(d,2) + ceil_div(7t,8)`. -/
def Obligations.TpduLenExcludesTheServiceCenter : Prop :=
  ∀ (s t : State), exec .encodePdu s = .next t → t.status = .ok →
    t.tpduLen.val = t.resultLen.val - s.scFieldSize ∧
    t.tpduLen.val = 8 + ceilDiv s.daLen.toNat 2 + ceilDiv (7 * s.textLen.toNat) 8

/-- An absent service center is the single byte 0x00 before the message type; a present one is its
digit count (not a byte count) and the type-of-address 0x91, whatever its digits. -/
def Obligations.ServiceCenterFieldHead : Prop :=
  ∀ (s t : State), exec .encodePdu s = .next t → t.status = .ok →
    (s.scLen.toNat = 0 → t.peek 0 = some 0x00#8 ∧ t.peek 1 = some 0x11#8) ∧
    (s.scLen.toNat ≠ 0 → t.peek 0 = some s.scLen ∧ t.peek 1 = some 0x91#8)

/-! ### HEX_FORMAT (44_hex_formatter.md) -/

/-- R87: the hex digit of each 4-bit value, upper case only. -/
def Obligations.HexCharsAreUpperCase : Prop :=
  (∀ v : Nat, v ≤ 9 → hexChar (BitVec.ofNat 8 v) = BitVec.ofNat 8 (0x30 + v)) ∧
  (∀ v : Nat, 10 ≤ v → v ≤ 15 →
    hexChar (BitVec.ofNat 8 v) = BitVec.ofNat 8 (0x41 + (v - 10))) ∧
  (∀ v : Nat, v ≤ 15 → ¬ (0x61 ≤ (hexChar (BitVec.ofNat 8 v)).toNat ∧
    (hexChar (BitVec.ofNat 8 v)).toNat ≤ 0x7A))

/-- R89: HEX_FORMAT always ends OK, writes the two characters of every result byte into HEX, sets
HEX_COUNT to twice RESULT_LEN, and leaves RESULT_LEN, TPDU_LEN, OUT and HEX past HEX_COUNT. Running
it twice gives the same state; that clause is stated under the invariant, without which a result
byte could be unwritten and a fresh draw each time. -/
def Obligations.HexFormatWritesTheText : Prop :=
  (∀ s : State, ∃ t, exec .hexFormat s = .next t ∧
    t.status = .ok ∧ t.hexCount.val = 2 * s.resultLen.val ∧
    t.resultLen = s.resultLen ∧ t.tpduLen = s.tpduLen ∧
    (∀ m, m < s.resultLen.val →
      t.peek (0x0400 + 2 * m) =
        some (hexChar (((s.readBytes 0x0000 s.resultLen.val).1.getD m 0#8) >>> 4)) ∧
      t.peek (0x0400 + 2 * m + 1) =
        some (hexChar (((s.readBytes 0x0000 s.resultLen.val).1.getD m 0#8) &&& 0x0F#8))) ∧
    (∀ m b, m < s.resultLen.val → s.peek m = some b →
      (s.readBytes 0x0000 s.resultLen.val).1.getD m 0#8 = b) ∧
    SameBytesOutside s t 0x0400 (2 * s.resultLen.val)) ∧
  (∀ (s t : State), BlockInv s → exec .hexFormat s = .next t → exec .hexFormat t = .next t)

/-! ### The whole machine -/

/-- Every step keeps the invariant: the memory canonical and within the buffers, the result written,
the TPDU within it, HEX_COUNT 0 or twice RESULT_LEN, and HEX the hex text of the result in force
whenever HEX_COUNT is not 0. -/
def Obligations.EveryStepKeepsInv : Prop :=
  ∀ (s t : State), BlockInv s → step s = .next t → BlockInv t

/-- The invariant holds right after reset. -/
def Obligations.ResetMeetsInv : Prop := BlockInv State.reset

/-- No command reads STATUS: with any other STATUS, and the same draws taken, it ends in the very same
state. -/
def Obligations.CommandsDoNotReadStatus : Prop :=
  ∀ (i : Instr) (s : State) (c : Status), exec i { s with status := c } = exec i s

/-- The outcome of a packing command is a function of its operands: two states that agree on the
command's lengths and OUT_CAP, and whose input bytes are written and equal, give the same STATUS,
result registers and result bytes, whatever else they hold. -/
def Obligations.PackingOutcomeIsAFunctionOfOperands : Prop :=
  ∀ (i : Instr) (s s' : State), Packs i → s'.outCap = s.outCap →
    (i ≠ .packPhone .da → i ≠ .packText → s'.scLen = s.scLen ∧
      ∀ k, k < s.scLen.toNat → (s.peek (0x0100 + k)).isSome = true ∧
        s'.peek (0x0100 + k) = s.peek (0x0100 + k)) →
    (i ≠ .packPhone .sc → i ≠ .packText → s'.daLen = s.daLen ∧
      ∀ k, k < s.daLen.toNat → (s.peek (0x0200 + k)).isSome = true ∧
        s'.peek (0x0200 + k) = s.peek (0x0200 + k)) →
    (i ≠ .packPhone .sc → i ≠ .packPhone .da → s'.textLen = s.textLen ∧
      ∀ k, k < s.textLen.toNat → (s.peek (0x0300 + k)).isSome = true ∧
        s'.peek (0x0300 + k) = s.peek (0x0300 + k)) →
    ∃ t t', exec i s = .next t ∧ exec i s' = .next t' ∧
      t'.status = t.status ∧ t'.resultLen = t.resultLen ∧ t'.tpduLen = t.tpduLen ∧
      t'.hexCount = t.hexCount ∧ ∀ j, j < t.resultLen.val → t'.peek j = t.peek j

/-- The pseudo-instruction `cmd M` runs M: its one bus transaction is the CMD write of M's byte. -/
def Obligations.CmdLineRunsItsCommand : Prop :=
  ∀ (i : Instr) (s : State) (rest : List PortEvent),
    s.port = (HostLine.cmd i).events ++ rest → step s = exec i { s with port := rest }

/-- The assembler: a string over 255 characters is rejected, and an accepted `ld_*` writes character
`i` at `base + i`, in increasing order, and then the length register. -/
def Obligations.LoadLinesExpand : Prop :=
  ∀ str : List Byte,
    (255 < str.length → assemble [.ldSc str] = none ∧ assemble [.ldDa str] = none ∧
      assemble [.ldText str] = none) ∧
    (str.length ≤ 255 → ∃ sc da tx, assemble [.ldSc str] = some sc ∧
      assemble [.ldDa str] = some da ∧ assemble [.ldText str] = some tx ∧
      sc.length = str.length + 1 ∧ da.length = str.length + 1 ∧ tx.length = str.length + 1 ∧
      (∀ i, i < str.length →
        sc[i]? = some (.write (BitVec.ofNat 16 (0x0100 + i)) (str.getD i 0#8)) ∧
        da[i]? = some (.write (BitVec.ofNat 16 (0x0200 + i)) (str.getD i 0#8)) ∧
        tx[i]? = some (.write (BitVec.ofNat 16 (0x0300 + i)) (str.getD i 0#8))) ∧
      sc[str.length]? = some (.write 0x0608#16 (BitVec.ofNat 8 str.length)) ∧
      da[str.length]? = some (.write 0x0609#16 (BitVec.ofNat 8 str.length)) ∧
      tx[str.length]? = some (.write 0x060A#16 (BitVec.ofNat 8 str.length)))
end

