-- ==== Sys2Proof/Laws/State.lean ====
section
/-! SUPPORT. One lemma per field per update of State: what each small update changes and what it
leaves. -/

namespace Sys2Proof.Machine

section WriteByte
variable (s : State) (a : Nat) (b : Byte)
@[simp] theorem writeByte_status : (s.writeByte a b).status = s.status := rfl
@[simp] theorem writeByte_resultLen : (s.writeByte a b).resultLen = s.resultLen := rfl
@[simp] theorem writeByte_tpduLen : (s.writeByte a b).tpduLen = s.tpduLen := rfl
@[simp] theorem writeByte_hexCount : (s.writeByte a b).hexCount = s.hexCount := rfl
@[simp] theorem writeByte_scLen : (s.writeByte a b).scLen = s.scLen := rfl
@[simp] theorem writeByte_daLen : (s.writeByte a b).daLen = s.daLen := rfl
@[simp] theorem writeByte_textLen : (s.writeByte a b).textLen = s.textLen := rfl
@[simp] theorem writeByte_outCap : (s.writeByte a b).outCap = s.outCap := rfl
@[simp] theorem writeByte_mem : (s.writeByte a b).mem = Memory.set s.mem a b := rfl
@[simp] theorem writeByte_draws : (s.writeByte a b).draws = s.draws := rfl
@[simp] theorem writeByte_port : (s.writeByte a b).port = s.port := rfl
@[simp] theorem writeByte_observed : (s.writeByte a b).observed = s.observed := rfl
end WriteByte

section Draw
variable (s : State)
@[simp] theorem draw_value : s.draw.1 = Config.freeByte s.draws := rfl
@[simp] theorem draw_status : s.draw.2.status = s.status := rfl
@[simp] theorem draw_resultLen : s.draw.2.resultLen = s.resultLen := rfl
@[simp] theorem draw_tpduLen : s.draw.2.tpduLen = s.tpduLen := rfl
@[simp] theorem draw_hexCount : s.draw.2.hexCount = s.hexCount := rfl
@[simp] theorem draw_scLen : s.draw.2.scLen = s.scLen := rfl
@[simp] theorem draw_daLen : s.draw.2.daLen = s.daLen := rfl
@[simp] theorem draw_textLen : s.draw.2.textLen = s.textLen := rfl
@[simp] theorem draw_outCap : s.draw.2.outCap = s.outCap := rfl
@[simp] theorem draw_mem : s.draw.2.mem = s.mem := rfl
@[simp] theorem draw_draws : s.draw.2.draws = s.draws + 1 := rfl
@[simp] theorem draw_port : s.draw.2.port = s.port := rfl
@[simp] theorem draw_observed : s.draw.2.observed = s.observed := rfl
@[simp] theorem draw_peek (x : Nat) : s.draw.2.peek x = s.peek x := rfl
end Draw

section Finish
variable (s : State) (len tpdu : Nat)
@[simp] theorem finish_status : (s.finish len tpdu).status = .ok := rfl
@[simp] theorem finish_resultLen : (s.finish len tpdu).resultLen = Fin.ofNat 257 len := rfl
@[simp] theorem finish_tpduLen : (s.finish len tpdu).tpduLen = Fin.ofNat 257 tpdu := rfl
@[simp] theorem finish_hexCount : (s.finish len tpdu).hexCount = 0 := rfl
@[simp] theorem finish_scLen : (s.finish len tpdu).scLen = s.scLen := rfl
@[simp] theorem finish_daLen : (s.finish len tpdu).daLen = s.daLen := rfl
@[simp] theorem finish_textLen : (s.finish len tpdu).textLen = s.textLen := rfl
@[simp] theorem finish_outCap : (s.finish len tpdu).outCap = s.outCap := rfl
@[simp] theorem finish_mem : (s.finish len tpdu).mem = s.mem := rfl
@[simp] theorem finish_draws : (s.finish len tpdu).draws = s.draws := rfl
@[simp] theorem finish_port : (s.finish len tpdu).port = s.port := rfl
@[simp] theorem finish_observed : (s.finish len tpdu).observed = s.observed := rfl
@[simp] theorem finish_peek (x : Nat) : (s.finish len tpdu).peek x = s.peek x := rfl
end Finish

section Raise
variable (s : State) (e : EncodeError)
@[simp] theorem raise_status : (s.raise e).status = e.status := rfl
@[simp] theorem raise_resultLen : (s.raise e).resultLen = 0 := rfl
@[simp] theorem raise_tpduLen : (s.raise e).tpduLen = 0 := rfl
@[simp] theorem raise_hexCount : (s.raise e).hexCount = 0 := rfl
end Raise

section IllegalCommand
variable (s : State)
@[simp] theorem illegalCommand_status : s.illegalCommand.status = .illegalCommand := rfl
@[simp] theorem illegalCommand_resultLen : s.illegalCommand.resultLen = s.resultLen := rfl
@[simp] theorem illegalCommand_tpduLen : s.illegalCommand.tpduLen = s.tpduLen := rfl
@[simp] theorem illegalCommand_hexCount : s.illegalCommand.hexCount = s.hexCount := rfl
@[simp] theorem illegalCommand_mem : s.illegalCommand.mem = s.mem := rfl
@[simp] theorem illegalCommand_peek (x : Nat) : s.illegalCommand.peek x = s.peek x := rfl
end IllegalCommand

end Sys2Proof.Machine
end

