-- ==== Sys2Proof/Laws/Memory.lean ====
section
/-! SUPPORT. The laws of the memory: a read after a write, the canonical form, and which addresses
are listed. -/

namespace Sys2Proof.Machine

theorem Memory.get_set_same (m : List Host.Cell) (a : Nat) (b : Byte) :
    Memory.get (Memory.set m a b) a = some b := by
  induction m with
  | nil => simp [Memory.set, Memory.get]
  | cons c rest ih =>
    obtain ⟨k, v⟩ := c
    simp only [Memory.set]
    split
    · simp [Memory.get]
    · split
      · simp [Memory.get]
      · simp [Memory.get, *]

theorem Memory.get_set_other (m : List Host.Cell) (a x : Nat) (b : Byte) (h : x ≠ a) :
    Memory.get (Memory.set m a b) x = Memory.get m x := by
  induction m with
  | nil => simp [Memory.set, Memory.get, h]
  | cons c rest ih =>
    obtain ⟨k, v⟩ := c
    simp only [Memory.set]
    split
    · simp [Memory.get, h]
    · split
      · rename_i hk
        subst hk
        simp [Memory.get, h]
      · simp [Memory.get, ih]

/-- A write lists the written address and nothing else that was not listed. -/
theorem Memory.mem_set (m : List Host.Cell) (a : Nat) (b : Byte) (c : Host.Cell)
    (h : c ∈ Memory.set m a b) : c = (a, b) ∨ c ∈ m := by
  induction m with
  | nil => simpa [Memory.set] using h
  | cons d rest ih =>
    obtain ⟨k, v⟩ := d
    simp only [Memory.set] at h
    split at h
    · simpa using h
    · split at h
      · simp only [List.mem_cons] at h ⊢
        tauto
      · simp only [List.mem_cons] at h ⊢
        rcases h with h | h
        · exact .inr (.inl h)
        · rcases ih h with h | h
          · exact .inl h
          · exact .inr (.inr h)

/-- A write keeps the canonical form. -/
theorem Memory.set_wf (m : List Host.Cell) (a : Nat) (b : Byte) (h : Memory.wf m) :
    Memory.wf (Memory.set m a b) := by
  induction m with
  | nil => simp [Memory.set, Memory.wf]
  | cons c rest ih =>
    obtain ⟨k, v⟩ := c
    have hrest := List.pairwise_cons.mp h
    simp only [Memory.set]
    split
    · rename_i hlt
      refine List.pairwise_cons.mpr ⟨?_, h⟩
      intro c hc
      rcases List.mem_cons.mp hc with rfl | hc
      · exact hlt
      · exact lt_trans hlt (hrest.1 c hc)
    · split
      · rename_i heq
        subst heq
        exact List.pairwise_cons.mpr ⟨hrest.1, hrest.2⟩
      · refine List.pairwise_cons.mpr ⟨?_, ih hrest.2⟩
        intro c hc
        rcases Memory.mem_set rest a b c hc with rfl | hc
        · show k < a
          omega
        · exact hrest.1 c hc

/-- In the canonical form, writing the byte an address already holds changes nothing. -/
theorem Memory.set_idem (m : List Host.Cell) (a : Nat) (b : Byte) (h : Memory.wf m)
    (hg : Memory.get m a = some b) : Memory.set m a b = m := by
  induction m with
  | nil => simp [Memory.get, Memory.unlisted] at hg
  | cons c rest ih =>
    obtain ⟨k, v⟩ := c
    have hrest := List.pairwise_cons.mp h
    simp only [Memory.get] at hg
    simp only [Memory.set]
    by_cases hak : a = k
    · rw [if_pos hak] at hg
      rw [if_neg (by omega), if_pos hak]
      simp_all
    · rw [if_neg hak] at hg
      have hmem : ∀ r : List Host.Cell, Memory.get r a = some b → (a, b) ∈ r := by
        intro r
        induction r with
        | nil => simp [Memory.get, Memory.unlisted]
        | cons d r ih' =>
          obtain ⟨k', v'⟩ := d
          simp only [Memory.get]
          split
          · intro hv; simp_all
          · intro hv; exact List.mem_cons_of_mem _ (ih' hv)
      have hka : k < a := hrest.1 _ (hmem rest hg)
      rw [if_neg (by omega), if_neg hak, ih hrest.2 hg]

/-- Reset memory is in the canonical form. -/
theorem Memory.reset_wf : Memory.wf State.reset.mem := List.Pairwise.nil

@[simp] theorem writeByte_peek_same (s : State) (a : Nat) (b : Byte) :
    (s.writeByte a b).peek a = some b := Memory.get_set_same s.mem a b

theorem writeByte_peek_other (s : State) (a x : Nat) (b : Byte) (h : x ≠ a) :
    (s.writeByte a b).peek x = s.peek x := Memory.get_set_other s.mem a x b h

end Sys2Proof.Machine
end

