-- ==== Sys2Proof/Laws/Ops.lean ====
section
/-! SUPPORT. What the shared operations do: reading a run of bytes changes nothing but the count of
draws; writing a run changes those bytes and the count of draws; and what the two exits leave. -/

namespace Sys2Proof.Machine

/-! ### Reading -/

theorem readByte_written (s : State) (a : Nat) (b : Byte) (h : s.peek a = some b) :
    s.readByte a = (b, s) := by simp [State.readByte, h]

theorem readByte_unwritten (s : State) (a : Nat) (h : s.peek a = none) :
    s.readByte a = s.draw := by simp [State.readByte, h]

/-- One read leaves every field but the count of draws. -/
theorem readByte_state (s : State) (a : Nat) :
    (s.readByte a).2 = { s with draws := (s.readByte a).2.draws } := by
  unfold State.readByte
  split <;> rfl

theorem readBytes_zero (s : State) (a : Nat) : s.readBytes a 0 = ([], s) := rfl

theorem readBytes_succ (s : State) (a n : Nat) :
    s.readBytes a (n + 1) =
      ((s.readByte a).1 :: ((s.readByte a).2.readBytes (a + 1) n).1,
        ((s.readByte a).2.readBytes (a + 1) n).2) := rfl

/-- Reading a run of bytes leaves every field but the count of draws. -/
theorem readBytes_state (s : State) (a n : Nat) :
    (s.readBytes a n).2 = { s with draws := (s.readBytes a n).2.draws } := by
  induction n generalizing s a with
  | zero => rfl
  | succ n ih =>
    rw [readBytes_succ]
    simp only
    rw [ih, readByte_state]

section
variable (s : State) (a n : Nat)
@[simp] theorem readBytes_status : (s.readBytes a n).2.status = s.status := by
  rw [readBytes_state]
@[simp] theorem readBytes_resultLen : (s.readBytes a n).2.resultLen = s.resultLen := by
  rw [readBytes_state]
@[simp] theorem readBytes_tpduLen : (s.readBytes a n).2.tpduLen = s.tpduLen := by
  rw [readBytes_state]
@[simp] theorem readBytes_hexCount : (s.readBytes a n).2.hexCount = s.hexCount := by
  rw [readBytes_state]
@[simp] theorem readBytes_scLen : (s.readBytes a n).2.scLen = s.scLen := by
  rw [readBytes_state]
@[simp] theorem readBytes_daLen : (s.readBytes a n).2.daLen = s.daLen := by
  rw [readBytes_state]
@[simp] theorem readBytes_textLen : (s.readBytes a n).2.textLen = s.textLen := by
  rw [readBytes_state]
@[simp] theorem readBytes_outCap : (s.readBytes a n).2.outCap = s.outCap := by
  rw [readBytes_state]
@[simp] theorem readBytes_mem : (s.readBytes a n).2.mem = s.mem := by
  rw [readBytes_state]
@[simp] theorem readBytes_port : (s.readBytes a n).2.port = s.port := by
  rw [readBytes_state]
@[simp] theorem readBytes_observed : (s.readBytes a n).2.observed = s.observed := by
  rw [readBytes_state]
@[simp] theorem readBytes_peek (x : Nat) : (s.readBytes a n).2.peek x = s.peek x := by
  rw [readBytes_state]
  rfl
@[simp] theorem readBytes_effCap : (s.readBytes a n).2.effCap = s.effCap := by
  rw [readBytes_state]
  rfl
end

@[simp] theorem readBytes_length (s : State) (a n : Nat) : (s.readBytes a n).1.length = n := by
  induction n generalizing s a with
  | zero => rfl
  | succ n ih => simp [readBytes_succ, ih]

/-- What a run of reads returns, and how many draws it takes, depends only on the bytes of the run
and on the count of draws. -/
theorem readBytes_congr (s s' : State) (a n : Nat) (hd : s.draws = s'.draws)
    (hp : ∀ k, k < n → s.peek (a + k) = s'.peek (a + k)) :
    (s.readBytes a n).1 = (s'.readBytes a n).1 ∧
      (s.readBytes a n).2.draws = (s'.readBytes a n).2.draws := by
  induction n generalizing s s' a with
  | zero => exact ⟨rfl, hd⟩
  | succ n ih =>
    have h0 : s.peek a = s'.peek a := hp 0 (by omega)
    have hb : (s.readByte a).1 = (s'.readByte a).1 ∧
        (s.readByte a).2.draws = (s'.readByte a).2.draws := by
      unfold State.readByte
      rw [h0]
      split
      · exact ⟨rfl, hd⟩
      · simp [hd]
    have hr := ih (s.readByte a).2 (s'.readByte a).2 (a + 1) hb.2 (by
      intro k hk
      rw [readByte_state s, readByte_state s']
      have := hp (k + 1) (by omega)
      rw [show a + (k + 1) = a + 1 + k by omega] at this
      exact this)
    simp only [readBytes_succ]
    exact ⟨by rw [hb.1, hr.1], hr.2⟩

/-- A run whose bytes were all written is read without a draw. -/
theorem readBytes_written_state (s : State) (a n : Nat)
    (h : ∀ k, k < n → (s.peek (a + k)).isSome = true) : (s.readBytes a n).2 = s := by
  induction n generalizing s a with
  | zero => rfl
  | succ n ih =>
    obtain ⟨b, hb⟩ := Option.isSome_iff_exists.mp (h 0 (by omega))
    have hb' : s.peek a = some b := hb
    rw [readBytes_succ, readByte_written s a b hb']
    exact ih s (a + 1) (fun k hk => by
      have := h (k + 1) (by omega)
      rwa [show a + (k + 1) = a + 1 + k by omega] at this)

/-- A written byte of a run is what the run's read returns for it. -/
theorem readBytes_written_value (s : State) (a n k : Nat) (b : Byte) (hk : k < n)
    (h : s.peek (a + k) = some b) : (s.readBytes a n).1.getD k 0#8 = b := by
  induction n generalizing s a k with
  | zero => omega
  | succ n ih =>
    rw [readBytes_succ]
    cases k with
    | zero => simp [readByte_written s a b h]
    | succ k =>
      have : (s.readByte a).2.peek (a + 1 + k) = some b := by
        rw [readByte_state]
        show s.peek (a + 1 + k) = some b
        rw [← h]; congr 1; omega
      simpa using ih _ _ _ (by omega) this

/-! ### Writing -/

theorem putBytes_nil (s : State) (a : Nat) : s.putBytes a [] = s := rfl

theorem putBytes_some (s : State) (a : Nat) (b : Byte) (rest : List (Option Byte)) :
    s.putBytes a (some b :: rest) = (s.writeByte a b).putBytes (a + 1) rest := rfl

theorem putBytes_none (s : State) (a : Nat) (rest : List (Option Byte)) :
    s.putBytes a (none :: rest) =
      (s.draw.2.writeByte a (Config.freeByte s.draws)).putBytes (a + 1) rest := rfl

/-- Writing a run leaves every field but the memory and the count of draws. -/
theorem putBytes_state (s : State) (a : Nat) (os : List (Option Byte)) :
    s.putBytes a os =
      { s with mem := (s.putBytes a os).mem, draws := (s.putBytes a os).draws } := by
  induction os generalizing s a with
  | nil => rfl
  | cons o rest ih =>
    cases o with
    | some b => rw [putBytes_some, ih]; rfl
    | none => rw [putBytes_none, ih]; rfl

section
variable (s : State) (a : Nat) (os : List (Option Byte))
@[simp] theorem putBytes_status : (s.putBytes a os).status = s.status := by
  rw [putBytes_state]
@[simp] theorem putBytes_resultLen : (s.putBytes a os).resultLen = s.resultLen := by
  rw [putBytes_state]
@[simp] theorem putBytes_tpduLen : (s.putBytes a os).tpduLen = s.tpduLen := by
  rw [putBytes_state]
@[simp] theorem putBytes_hexCount : (s.putBytes a os).hexCount = s.hexCount := by
  rw [putBytes_state]
@[simp] theorem putBytes_scLen : (s.putBytes a os).scLen = s.scLen := by
  rw [putBytes_state]
@[simp] theorem putBytes_daLen : (s.putBytes a os).daLen = s.daLen := by
  rw [putBytes_state]
@[simp] theorem putBytes_textLen : (s.putBytes a os).textLen = s.textLen := by
  rw [putBytes_state]
@[simp] theorem putBytes_outCap : (s.putBytes a os).outCap = s.outCap := by
  rw [putBytes_state]
@[simp] theorem putBytes_port : (s.putBytes a os).port = s.port := by
  rw [putBytes_state]
@[simp] theorem putBytes_observed : (s.putBytes a os).observed = s.observed := by
  rw [putBytes_state]
@[simp] theorem putBytes_effCap : (s.putBytes a os).effCap = s.effCap := by
  rw [putBytes_state]
  rfl
end

theorem putBytes_append (s : State) (a : Nat) (xs ys : List (Option Byte)) :
    s.putBytes a (xs ++ ys) = (s.putBytes a xs).putBytes (a + xs.length) ys := by
  induction xs generalizing s a with
  | nil => rfl
  | cons o rest ih =>
    cases o with
    | some b =>
      rw [List.cons_append, putBytes_some, putBytes_some, ih, List.length_cons]
      congr 1; omega
    | none =>
      rw [List.cons_append, putBytes_none, putBytes_none, ih, List.length_cons]
      congr 1; omega

/-- A byte outside the run written holds what it held. -/
theorem putBytes_peek_outside (s : State) (a x : Nat) (os : List (Option Byte))
    (h : x < a ∨ a + os.length ≤ x) : (s.putBytes a os).peek x = s.peek x := by
  induction os generalizing s a with
  | nil => rfl
  | cons o rest ih =>
    simp only [List.length_cons] at h
    cases o with
    | some b =>
      rw [putBytes_some, ih _ _ (by omega), writeByte_peek_other _ _ _ _ (by omega)]
    | none =>
      rw [putBytes_none, ih _ _ (by omega), writeByte_peek_other _ _ _ _ (by omega), draw_peek]

/-- A byte of the run that was given a value holds it. -/
theorem putBytes_peek_some (s : State) (a k : Nat) (os : List (Option Byte)) (b : Byte)
    (h : os[k]? = some (some b)) : (s.putBytes a os).peek (a + k) = some b := by
  induction os generalizing s a k with
  | nil => simp at h
  | cons o rest ih =>
    cases k with
    | zero =>
      simp only [List.getElem?_cons_zero, Option.some.injEq] at h
      subst h
      rw [putBytes_some, putBytes_peek_outside _ _ _ _ (by omega)]
      simp
    | succ k =>
      simp only [List.getElem?_cons_succ] at h
      rw [show a + (k + 1) = a + 1 + k by omega]
      cases o with
      | some c => rw [putBytes_some]; exact ih _ _ _ h
      | none => rw [putBytes_none]; exact ih _ _ _ h

/-- A byte of the run that was given a draw holds a free byte. -/
theorem putBytes_peek_none (s : State) (a k : Nat) (os : List (Option Byte))
    (h : os[k]? = some none) :
    ∃ d, s.draws ≤ d ∧ (s.putBytes a os).peek (a + k) = some (Config.freeByte d) := by
  induction os generalizing s a k with
  | nil => simp at h
  | cons o rest ih =>
    cases k with
    | zero =>
      simp only [List.getElem?_cons_zero, Option.some.injEq] at h
      subst h
      refine ⟨s.draws, le_rfl, ?_⟩
      rw [putBytes_none, putBytes_peek_outside _ _ _ _ (by omega)]
      simp
    | succ k =>
      simp only [List.getElem?_cons_succ] at h
      rw [show a + (k + 1) = a + 1 + k by omega]
      cases o with
      | some c =>
        rw [putBytes_some]
        exact ih (s.writeByte a c) (a + 1) k h
      | none =>
        rw [putBytes_none]
        obtain ⟨d, hd, hp⟩ := ih (s.draw.2.writeByte a (Config.freeByte s.draws)) (a + 1) k h
        exact ⟨d, by simp at hd; omega, hp⟩

/-- Every byte of the run is written afterwards. -/
theorem putBytes_peek_isSome (s : State) (a k : Nat) (os : List (Option Byte))
    (h : k < os.length) : ((s.putBytes a os).peek (a + k)).isSome = true := by
  cases ho : os[k] with
  | some b =>
    rw [putBytes_peek_some s a k os b (by rw [List.getElem?_eq_getElem h, ho])]
    rfl
  | none =>
    obtain ⟨d, -, hp⟩ := putBytes_peek_none s a k os (by rw [List.getElem?_eq_getElem h, ho])
    rw [hp]; rfl

/-- Writing given values takes no draw. -/
@[simp] theorem putBytes_draws_values (s : State) (a : Nat) (bs : List Byte) :
    (s.putBytes a (bs.map some)).draws = s.draws := by
  induction bs generalizing s a with
  | nil => rfl
  | cons b rest ih => rw [List.map_cons, putBytes_some, ih]; rfl

/-- The run of draws of the error exit: the `j`-th byte is the `j`-th draw from there on. -/
theorem putBytes_replicate_peek (s : State) (a n j : Nat) (h : j < n) :
    (s.putBytes a (List.replicate n none)).peek (a + j) =
      some (Config.freeByte (s.draws + j)) := by
  induction n generalizing s a j with
  | zero => omega
  | succ n ih =>
    rw [List.replicate_succ, putBytes_none]
    cases j with
    | zero =>
      rw [putBytes_peek_outside _ _ _ _ (by omega)]
      simp
    | succ j =>
      have := ih (s.draw.2.writeByte a (Config.freeByte s.draws)) (a + 1) j (by omega)
      rw [show a + (j + 1) = a + 1 + j by omega, this]
      simp only [writeByte_draws, draw_draws]
      congr 2; omega

theorem putBytes_replicate_draws (s : State) (a n : Nat) :
    (s.putBytes a (List.replicate n none)).draws = s.draws + n := by
  induction n generalizing s a with
  | zero => rfl
  | succ n ih =>
    rw [List.replicate_succ, putBytes_none, ih]
    simp only [writeByte_draws, draw_draws]
    omega

/-- Writing a run keeps the canonical form. -/
theorem putBytes_wf (s : State) (a : Nat) (os : List (Option Byte)) (h : Memory.wf s.mem) :
    Memory.wf (s.putBytes a os).mem := by
  induction os generalizing s a with
  | nil => exact h
  | cons o rest ih =>
    cases o with
    | some b => rw [putBytes_some]; exact ih _ _ (Memory.set_wf _ _ _ h)
    | none => rw [putBytes_none]; exact ih _ _ (Memory.set_wf _ _ _ h)

/-- Writing a run below a bound lists only addresses below it. -/
theorem putBytes_mem_lt (s : State) (a bound : Nat) (os : List (Option Byte))
    (ha : a + os.length ≤ bound) (h : ∀ c ∈ s.mem, c.1 < bound) :
    ∀ c ∈ (s.putBytes a os).mem, c.1 < bound := by
  induction os generalizing s a with
  | nil => exact h
  | cons o rest ih =>
    simp only [List.length_cons] at ha
    have hset : ∀ b : Byte, ∀ c ∈ Memory.set s.mem a b, c.1 < bound := by
      intro b c hc
      rcases Memory.mem_set _ _ _ _ hc with rfl | hc
      · show a < bound
        omega
      · exact h c hc
    cases o with
    | some b => rw [putBytes_some]; exact ih _ _ (by omega) (hset b)
    | none => rw [putBytes_none]; exact ih _ _ (by omega) (hset _)

/-! ### The exits -/

section
variable (s : State) (e : EncodeError)
@[simp] theorem raise_scLen : (s.raise e).scLen = s.scLen := by simp [State.raise]
@[simp] theorem raise_daLen : (s.raise e).daLen = s.daLen := by simp [State.raise]
@[simp] theorem raise_textLen : (s.raise e).textLen = s.textLen := by simp [State.raise]
@[simp] theorem raise_outCap : (s.raise e).outCap = s.outCap := by simp [State.raise]
@[simp] theorem raise_port : (s.raise e).port = s.port := by simp [State.raise]
@[simp] theorem raise_observed : (s.raise e).observed = s.observed := by simp [State.raise]
@[simp] theorem raise_effCap : (s.raise e).effCap = s.effCap := by
  simp [State.effCap]
@[simp] theorem raise_draws : (s.raise e).draws = s.draws + s.effCap :=
  putBytes_replicate_draws s 0 s.effCap
end

/-- The error exit leaves every byte at `eff_cap` and above (R95). -/
theorem raise_peek_outside (s : State) (e : EncodeError) (x : Nat) (h : s.effCap ≤ x) :
    (s.raise e).peek x = s.peek x :=
  putBytes_peek_outside s 0 x _ (.inr (by simpa using h))

/-- The error exit makes every in-capacity OUT byte a fresh draw (R95). -/
theorem raise_peek_draw (s : State) (e : EncodeError) (j : Nat) (h : j < s.effCap) :
    (s.raise e).peek j = some (Config.freeByte (s.draws + j)) := by
  have := putBytes_replicate_peek s 0 s.effCap j h
  rwa [Nat.zero_add] at this

theorem raise_wf (s : State) (e : EncodeError) (h : Memory.wf s.mem) :
    Memory.wf (s.raise e).mem := putBytes_wf s 0 _ h

theorem effCap_le (s : State) : s.effCap ≤ 256 := Nat.min_le_right _ _

@[simp] theorem finish_effCap (s : State) (len tpdu : Nat) :
    (s.finish len tpdu).effCap = s.effCap := rfl

/-! ### Progress -/

@[simp] theorem andThen_reached (p : Nat) (s : State) (f : Nat → State → Progress) :
    (Progress.reached p s).andThen f = f p s := rfl

@[simp] theorem andThen_raised (e : EncodeError) (s : State) (f : Nat → State → Progress) :
    (Progress.raised e s).andThen f = .raised e s := rfl

@[simp] theorem close_reached (p : Nat) (s : State) (f : Nat → State → State) :
    (Progress.reached p s).close f = f p s := rfl

@[simp] theorem close_raised (e : EncodeError) (s : State) (f : Nat → State → State) :
    (Progress.raised e s).close f = s.raise e := rfl

theorem ifFits_fits (s : State) (p n : Nat) (r : Progress) (h : p + n ≤ s.effCap) :
    s.ifFits p n r = r := by
  unfold State.ifFits
  rw [if_neg (by omega)]

theorem ifFits_exceeds (s : State) (p n : Nat) (r : Progress) (h : s.effCap < p + n) :
    s.ifFits p n r = .raised .bufferTooSmall s := by
  unfold State.ifFits
  rw [if_pos (by omega)]

end Sys2Proof.Machine
end

