-- ==== Sys2Proof/Laws/Packing.lean ====
section
/-! SUPPORT. The lists the packers write (their lengths and entries), and for each packing step one
lemma that says everything it can do. -/

namespace Sys2Proof.Machine

/-! ### Lists -/

theorem length_semiOctets (cs : List Byte) : (semiOctets cs).length = ceilDiv cs.length 2 := by
  induction cs using semiOctets.induct with
  | case1 => simp [semiOctets, ceilDiv]
  | case2 c => simp [semiOctets, ceilDiv]
  | case3 c0 c1 rest ih =>
    simp only [semiOctets, List.length_cons, ih, ceilDiv]
    omega

/-- The entry of a full pair. -/
theorem semiOctets_pair (cs : List Byte) (m : Nat) (h : 2 * m + 1 < cs.length) :
    (semiOctets cs)[m]? = some (pairOctet (cs.getD (2 * m) 0#8) (cs.getD (2 * m + 1) 0#8)) := by
  induction cs using semiOctets.induct generalizing m with
  | case1 => simp at h
  | case2 c => simp at h
  | case3 c0 c1 rest ih =>
    cases m with
    | zero => simp [semiOctets]
    | succ m =>
      simp only [List.length_cons] at h
      have := ih m (by omega)
      simp only [semiOctets, List.getElem?_cons_succ, this]
      rw [show 2 * (m + 1) = 2 * m + 1 + 1 by omega]
      simp

/-- The entry of a last digit without a partner. -/
theorem semiOctets_last (cs : List Byte) (m : Nat) (h : 2 * m + 1 = cs.length) :
    (semiOctets cs)[m]? = some (lastOctet (cs.getD (2 * m) 0#8)) := by
  induction cs using semiOctets.induct generalizing m with
  | case1 => simp at h
  | case2 c =>
    obtain rfl : m = 0 := by simp at h; omega
    simp [semiOctets]
  | case3 c0 c1 rest ih =>
    cases m with
    | zero => simp at h
    | succ m =>
      simp only [List.length_cons] at h
      have := ih m (by omega)
      simp only [semiOctets, List.getElem?_cons_succ, this]
      rw [show 2 * (m + 1) = 2 * m + 1 + 1 by omega]
      simp

/-- The semi-octet byte of two digit values below 16, as a number. -/
theorem nibbles_toNat (lo hi : Byte) (hl : lo.toNat < 16) (hh : hi.toNat < 16) :
    ((hi <<< 4) ||| lo) = BitVec.ofNat 8 (lo.toNat + 16 * hi.toNat) := by
  have key : ∀ a b : Fin 16, (((BitVec.ofNat 8 b.val) <<< 4) ||| BitVec.ofNat 8 a.val) =
      BitVec.ofNat 8 (a.val + 16 * b.val) := by decide
  have := key ⟨lo.toNat, hl⟩ ⟨hi.toNat, hh⟩
  simpa using this

theorem digitValue_toNat (c : Byte) (h : isDigit c = true) :
    (digitValue c).toNat = c.toNat - 0x30 ∧ (digitValue c).toNat < 10 := by
  simp only [isDigit, Bool.and_eq_true, decide_eq_true_eq] at h
  have : (48#8).toNat = 48 := rfl
  simp only [digitValue, BitVec.toNat_sub, this]
  omega

theorem isDigit_iff (c : Byte) : isDigit c = true ↔ 0x30 ≤ c.toNat ∧ c.toNat ≤ 0x39 := by
  simp [isDigit]

theorem pairOctet_digits (c0 c1 : Byte) (h0 : isDigit c0 = true) (h1 : isDigit c1 = true) :
    pairOctet c0 c1 =
      some (BitVec.ofNat 8 ((c0.toNat - 0x30) + 16 * (c1.toNat - 0x30))) := by
  have h0' := digitValue_toNat c0 h0
  have h1' := digitValue_toNat c1 h1
  simp only [pairOctet, h0, h1, Bool.and_self, if_true]
  rw [nibbles_toNat _ _ (by omega) (by omega), h0'.1, h1'.1]

theorem lastOctet_digit (c : Byte) (h : isDigit c = true) :
    lastOctet c = some (BitVec.ofNat 8 ((c.toNat - 0x30) + 16 * 0xF)) := by
  have h' := digitValue_toNat c h
  simp only [lastOctet, h, if_true]
  rw [nibbles_toNat _ _ (by omega) (by decide), h'.1]
  rfl

theorem all_isDigit_iff (cs : List Byte) :
    cs.all isDigit = true ↔ ∀ k, k < cs.length → isDigit (cs.getD k 0#8) = true := by
  rw [List.all_eq_true]
  constructor
  · intro h k hk
    rw [List.getD_eq_getElem _ _ hk]
    exact h _ (List.getElem_mem hk)
  · intro h c hc
    obtain ⟨k, hk, rfl⟩ := List.getElem_of_mem hc
    have := h k hk
    rwa [List.getD_eq_getElem _ _ hk] at this

/-- The number of bytes the loop emits from shift counter `k` on `n` characters. -/
theorem length_pack7Loop (cs : List Byte) (k : Nat) (hk : 1 ≤ k) (hk7 : k ≤ 7) :
    (pack7Loop cs k).length = (7 * cs.length + 8 - k) / 8 := by
  fun_induction pack7Loop cs k with
  | case1 k => simp; omega
  | case2 c k => simp; omega
  | case3 c0 c1 rest k ih1 ih2 =>
    rw [List.length_cons]
    by_cases h : k + 1 = 8
    · rw [if_pos h, ih1 (by omega) (by omega)]
      simp only [List.length_cons]
      omega
    · rw [if_neg h, ih2 (by omega) (by omega)]
      simp only [List.length_cons]
      omega

theorem length_pack7 (cs : List Byte) : (pack7 cs).length = ceilDiv (7 * cs.length) 8 := by
  rw [pack7, length_pack7Loop _ _ (by omega) (by omega), List.length_map]
  rfl

theorem length_hexText (bs : List Byte) : (hexText bs).length = 2 * bs.length := by
  induction bs with
  | nil => rfl
  | cons b rest ih => simp only [hexText, List.length_cons, ih]; omega

theorem hexText_high (bs : List Byte) (m : Nat) (h : m < bs.length) :
    (hexText bs)[2 * m]? = some (hexChar (bs.getD m 0#8 >>> 4)) := by
  induction bs generalizing m with
  | nil => simp at h
  | cons b rest ih =>
    cases m with
    | zero => simp [hexText]
    | succ m =>
      have := ih m (by simpa using h)
      rw [show 2 * (m + 1) = 2 * m + 1 + 1 by omega]
      simpa [hexText] using this

theorem hexText_low (bs : List Byte) (m : Nat) (h : m < bs.length) :
    (hexText bs)[2 * m + 1]? = some (hexChar (bs.getD m 0#8 &&& 0x0F#8)) := by
  induction bs generalizing m with
  | nil => simp at h
  | cons b rest ih =>
    cases m with
    | zero => simp [hexText]
    | succ m =>
      have := ih m (by simpa using h)
      rw [show 2 * (m + 1) + 1 = 2 * m + 1 + 1 + 1 by omega]
      simpa [hexText] using this

/-! ### What a packing step touches -/

/-- `t` comes from `s` by writing buffer bytes at host addresses from `lo` up to but not including
`hi`, and by drawing: everything else is as it was. -/
structure Touched (lo hi : Nat) (s t : State) : Prop where
  fields : t = { s with mem := t.mem, draws := t.draws }
  outside : ∀ x, (x < lo ∨ hi ≤ x) → t.peek x = s.peek x
  draws : s.draws ≤ t.draws
  wf : Memory.wf s.mem → Memory.wf t.mem
  bound : ∀ b, hi ≤ b → (∀ c ∈ s.mem, c.1 < b) → ∀ c ∈ t.mem, c.1 < b

theorem Touched.refl (lo hi : Nat) (s : State) : Touched lo hi s s :=
  ⟨rfl, fun _ _ => rfl, le_rfl, id, fun _ _ => id⟩

theorem Touched.trans {lo hi : Nat} {s t u : State} (h1 : Touched lo hi s t)
    (h2 : Touched lo hi t u) : Touched lo hi s u where
  fields := by rw [h2.fields, h1.fields]
  outside x hx := (h2.outside x hx).trans (h1.outside x hx)
  draws := h1.draws.trans h2.draws
  wf h := h2.wf (h1.wf h)
  bound b hb h := h2.bound b hb (h1.bound b hb h)

theorem Touched.mono {lo hi lo' hi' : Nat} {s t : State} (h : Touched lo hi s t) (hl : lo' ≤ lo)
    (hh : hi ≤ hi') : Touched lo' hi' s t where
  fields := h.fields
  outside x hx := h.outside x (by omega)
  draws := h.draws
  wf := h.wf
  bound b hb := h.bound b (by omega)

theorem readBytes_draws_le (s : State) (a n : Nat) : s.draws ≤ (s.readBytes a n).2.draws := by
  induction n generalizing s a with
  | zero => exact le_rfl
  | succ n ih =>
    rw [readBytes_succ]
    refine le_trans ?_ (ih _ _)
    unfold State.readByte
    split
    · exact le_rfl
    · simp

theorem putBytes_draws_le (s : State) (a : Nat) (os : List (Option Byte)) :
    s.draws ≤ (s.putBytes a os).draws := by
  induction os generalizing s a with
  | nil => exact le_rfl
  | cons o rest ih =>
    cases o with
    | some b => rw [putBytes_some]; exact ih (s.writeByte a b) (a + 1)
    | none =>
      rw [putBytes_none]
      have := ih (s.draw.2.writeByte a (Config.freeByte s.draws)) (a + 1)
      simp only [writeByte_draws, draw_draws] at this
      omega

theorem touched_readBytes (s : State) (a n lo hi : Nat) :
    Touched lo hi s (s.readBytes a n).2 where
  fields := by rw [readBytes_state]
  outside x _ := readBytes_peek s a n x
  draws := readBytes_draws_le s a n
  wf h := by rwa [readBytes_mem]
  bound b _ h := by rwa [readBytes_mem]

theorem touched_putBytes (s : State) (a : Nat) (os : List (Option Byte)) :
    Touched a (a + os.length) s (s.putBytes a os) where
  fields := putBytes_state s a os
  outside x hx := putBytes_peek_outside s a x os hx
  draws := putBytes_draws_le s a os
  wf := putBytes_wf s a os
  bound b hb := putBytes_mem_lt s a b os hb

section
variable {lo hi : Nat} {s t : State} (h : Touched lo hi s t)
include h
theorem Touched.status : t.status = s.status := by rw [h.fields]
theorem Touched.resultLen : t.resultLen = s.resultLen := by rw [h.fields]
theorem Touched.tpduLen : t.tpduLen = s.tpduLen := by rw [h.fields]
theorem Touched.hexCount : t.hexCount = s.hexCount := by rw [h.fields]
theorem Touched.scLen : t.scLen = s.scLen := by rw [h.fields]
theorem Touched.daLen : t.daLen = s.daLen := by rw [h.fields]
theorem Touched.textLen : t.textLen = s.textLen := by rw [h.fields]
theorem Touched.outCap : t.outCap = s.outCap := by rw [h.fields]
theorem Touched.port : t.port = s.port := by rw [h.fields]
theorem Touched.observed : t.observed = s.observed := by rw [h.fields]
theorem Touched.effCap : t.effCap = s.effCap := by rw [h.fields]; rfl
theorem Touched.phoneLen (src : PhoneSource) : t.phoneLen src = s.phoneLen src := by
  rw [h.fields]; cases src <;> rfl
end

/-! ### The packing steps -/

/-- `PackDigits`: either a non-digit was read (STRICT) and nothing is written, or the semi-octets
are written. -/
theorem packDigits_cases (dc : DigitCheck) (src n p : Nat) (s : State) :
    (dc = .strict ∧ (s.readBytes src n).1.all isDigit = false ∧
      packDigits dc src n p s = .raised .invalidDigit (s.readBytes src n).2) ∨
    ((dc = .strict → (s.readBytes src n).1.all isDigit = true) ∧
      packDigits dc src n p s = .reached (p + ceilDiv n 2)
        ((s.readBytes src n).2.putBytes p (semiOctets (s.readBytes src n).1))) := by
  unfold packDigits
  by_cases h : dc = .strict ∧ (s.readBytes src n).1.all isDigit = false
  · exact .inl ⟨h.1, h.2, if_pos h⟩
  · refine .inr ⟨fun hd => ?_, if_neg h⟩
    have : ¬ (s.readBytes src n).1.all isDigit = false := fun hf => h ⟨hd, hf⟩
    simpa using this

theorem packSeptets_eq (n p : Nat) (s : State) :
    packSeptets n p s = .reached (p + ceilDiv (7 * n) 8)
      ((s.readBytes Buffer.textIn.base n).2.putBytes p
        ((pack7 (s.readBytes Buffer.textIn.base n).1).map some)) := rfl

/-- What a packing step answers: it touched only OUT bytes from `p` up to the capacity, and a
position reached lies within the capacity, with every byte from `p` up to it written. -/
inductive Advances (p : Nat) (s : State) : Progress → Prop where
  | reached (q : Nat) (t : State) (le : p ≤ q) (fits : q ≤ s.effCap) (touched : Touched p q s t)
      (written : ∀ k, p ≤ k → k < q → (t.peek k).isSome = true) : Advances p s (.reached q t)
  | raised (e : EncodeError) (t : State) (touched : Touched p s.effCap s t) :
      Advances p s (.raised e t)

theorem Advances.andThen {p : Nat} {s : State} {r : Progress} {f : Nat → State → Progress}
    (h : Advances p s r) (hf : ∀ q t, Advances q t (f q t)) : Advances p s (r.andThen f) := by
  cases h with
  | raised e t touched => exact .raised e t touched
  | reached q t le fits touched written =>
    rw [andThen_reached]
    have hq := hf q t
    generalize f q t = r' at hq
    cases hq with
    | raised e u tu =>
      exact .raised e u ((touched.mono le_rfl fits).trans
        (tu.mono le (le_of_eq touched.effCap)))
    | reached q' u le' fits' tu wu =>
      refine .reached q' u (le.trans le') (by rw [touched.effCap] at fits'; exact fits')
        ((touched.mono le_rfl le').trans (tu.mono le le_rfl)) ?_
      intro k hk hk'
      by_cases hkq : k < q
      · rw [tu.outside k (.inl hkq)]
        exact written k hk hkq
      · exact wu k (by omega) hk'

theorem putOctets_advances (p : Nat) (octets : List Byte) (s : State) :
    Advances p s (s.putOctets p octets) := by
  unfold State.putOctets
  by_cases h : p + octets.length ≤ s.effCap
  · rw [ifFits_fits _ _ _ _ h]
    refine .reached _ _ (by omega) h ?_ ?_
    · simpa using touched_putBytes s p (octets.map some)
    · intro k hk hk'
      have := putBytes_peek_isSome s p (k - p) (octets.map some) (by simp; omega)
      rwa [show p + (k - p) = k by omega] at this
  · rw [ifFits_exceeds _ _ _ _ (by omega)]
    exact .raised _ _ (Touched.refl _ _ _)

/-- Octets followed by packed digits, behind one capacity check. -/
theorem headedDigits_advances (dc : DigitCheck) (src n p : Nat) (head : List Byte) (s : State) :
    Advances p s (s.ifFits p (head.length + ceilDiv n 2)
      (packDigits dc src n (p + head.length) (s.putBytes p (head.map some)))) := by
  by_cases h : p + (head.length + ceilDiv n 2) ≤ s.effCap
  · rw [ifFits_fits _ _ _ _ h]
    have t1 : Touched p (p + head.length) s (s.putBytes p (head.map some)) := by
      simpa using touched_putBytes s p (head.map some)
    rcases packDigits_cases dc src n (p + head.length) (s.putBytes p (head.map some)) with
      ⟨-, -, hr⟩ | ⟨-, hr⟩
    · rw [hr]
      exact .raised _ _ ((t1.mono le_rfl (by omega)).trans (touched_readBytes _ _ _ _ _))
    · rw [hr]
      have hlen : (semiOctets ((s.putBytes p (head.map some)).readBytes src n).1).length
          = ceilDiv n 2 := by rw [length_semiOctets, readBytes_length]
      have t2 := touched_putBytes ((s.putBytes p (head.map some)).readBytes src n).2
        (p + head.length) (semiOctets ((s.putBytes p (head.map some)).readBytes src n).1)
      rw [hlen] at t2
      refine .reached _ _ (by omega) (by omega)
        ((t1.mono le_rfl (by omega)).trans ((touched_readBytes _ src n _ _).trans
          (t2.mono (by omega) le_rfl))) ?_
      intro k hk hk'
      by_cases hkh : k < p + head.length
      · rw [putBytes_peek_outside _ _ _ _ (.inl hkh), readBytes_peek]
        have := putBytes_peek_isSome s p (k - p) (head.map some) (by simp; omega)
        rwa [show p + (k - p) = k by omega] at this
      · have := putBytes_peek_isSome ((s.putBytes p (head.map some)).readBytes src n).2
          (p + head.length) (k - (p + head.length)) _ (by rw [hlen]; omega)
        rwa [show p + head.length + (k - (p + head.length)) = k by omega] at this
  · rw [ifFits_exceeds _ _ _ _ (by omega)]
    exact .raised _ _ (Touched.refl _ _ _)

/-- Octets followed by packed septets, behind one capacity check. -/
theorem headedSeptets_advances (n p : Nat) (head : List Byte) (s : State) :
    Advances p s (s.ifFits p (head.length + ceilDiv (7 * n) 8)
      (packSeptets n (p + head.length) (s.putBytes p (head.map some)))) := by
  by_cases h : p + (head.length + ceilDiv (7 * n) 8) ≤ s.effCap
  · rw [ifFits_fits _ _ _ _ h, packSeptets_eq]
    have t1 : Touched p (p + head.length) s (s.putBytes p (head.map some)) := by
      simpa using touched_putBytes s p (head.map some)
    set s1 := s.putBytes p (head.map some) with hs1
    have hlen : ((pack7 (s1.readBytes Buffer.textIn.base n).1).map some).length
        = ceilDiv (7 * n) 8 := by rw [List.length_map, length_pack7, readBytes_length]
    have t2 := touched_putBytes (s1.readBytes Buffer.textIn.base n).2 (p + head.length)
      ((pack7 (s1.readBytes Buffer.textIn.base n).1).map some)
    rw [hlen] at t2
    refine .reached _ _ (by omega) (by omega)
      ((t1.mono le_rfl (by omega)).trans ((touched_readBytes _ _ n _ _).trans
        (t2.mono (by omega) le_rfl))) ?_
    intro k hk hk'
    by_cases hkh : k < p + head.length
    · rw [putBytes_peek_outside _ _ _ _ (.inl hkh), readBytes_peek, hs1]
      have := putBytes_peek_isSome s p (k - p) (head.map some) (by simp; omega)
      rwa [show p + (k - p) = k by omega] at this
    · have := putBytes_peek_isSome (s1.readBytes Buffer.textIn.base n).2
        (p + head.length) (k - (p + head.length)) _ (by rw [hlen]; omega)
      rwa [show p + head.length + (k - (p + head.length)) = k by omega] at this
  · rw [ifFits_exceeds _ _ _ _ (by omega)]
    exact .raised _ _ (Touched.refl _ _ _)

theorem addressField_advances (dc : DigitCheck) (src : PhoneSource) (p : Nat) (s : State) :
    Advances p s (addressField dc src p s) :=
  headedDigits_advances dc (phoneBuffer src).base (s.phoneLen src) p
    [BitVec.ofNat 8 (s.phoneLen src), Config.toa] s

theorem scField_advances (dc : DigitCheck) (p : Nat) (s : State) :
    Advances p s (scField dc p s) := by
  unfold scField
  split
  · exact putOctets_advances p _ s
  · exact addressField_advances dc .sc p s

theorem userDataField_advances (p : Nat) (s : State) : Advances p s (userDataField p s) :=
  headedSeptets_advances s.textLen.toNat p [s.textLen] s

theorem tpduFields_advances (dc : DigitCheck) (p : Nat) (s : State) :
    Advances p s (tpduFields dc p s) :=
  (((putOctets_advances p _ s).andThen fun q t => addressField_advances dc .da q t).andThen
    fun q t => putOctets_advances q _ t).andThen userDataField_advances

theorem phoneBody_advances (dc : DigitCheck) (src : PhoneSource) (s : State) :
    Advances 0 s (s.ifFits 0 (ceilDiv (s.phoneLen src) 2)
      (packDigits dc (phoneBuffer src).base (s.phoneLen src) 0 s)) := by
  have := headedDigits_advances dc (phoneBuffer src).base (s.phoneLen src) 0 [] s
  simpa [putBytes_nil] using this

theorem textBody_advances (s : State) :
    Advances 0 s (s.ifFits 0 (ceilDiv (7 * s.textLen.toNat) 8)
      (packSeptets s.textLen.toNat 0 s)) := by
  have := headedSeptets_advances s.textLen.toNat 0 [] s
  simpa [putBytes_nil] using this

/-! ### How a packing command ends -/

/-- The two ways PACK_PHONE, PACK_TEXT and ENCODE_PDU end (R94, R95): after touching only OUT below
the effective capacity, through the success exit with a result of written bytes, or through the
error exit. -/
inductive Ends (s : State) : State → Prop where
  | finished (u : State) (len tpdu : Nat) (touched : Touched 0 len s u) (fits : len ≤ s.effCap)
      (part : tpdu ≤ len) (written : ∀ k, k < len → (u.peek k).isSome = true) :
      Ends s (u.finish len tpdu)
  | failed (u : State) (e : EncodeError) (touched : Touched 0 s.effCap s u) :
      Ends s (u.raise e)

theorem packPhoneWith_ends (dc : DigitCheck) (src : PhoneSource) (s : State) :
    Ends s (packPhoneWith dc src s) := by
  unfold packPhoneWith
  have h := phoneBody_advances dc src s
  generalize s.ifFits _ _ _ = r at h
  cases h with
  | raised e t touched => exact .failed t e touched
  | reached q t le fits touched written =>
    exact .finished t q 0 touched fits (by omega) (fun k hk => written k (by omega) hk)

theorem packTextEffect_ends (s : State) : Ends s (packTextEffect s) := by
  unfold packTextEffect
  have h := textBody_advances s
  generalize s.ifFits _ _ _ = r at h
  cases h with
  | raised e t touched => exact .failed t e touched
  | reached q t le fits touched written =>
    exact .finished t q 0 touched fits (by omega) (fun k hk => written k (by omega) hk)

theorem encodePduWith_ends (dc : DigitCheck) (s : State) : Ends s (encodePduWith dc s) := by
  unfold encodePduWith
  split
  · exact .failed s _ (Touched.refl _ _ _)
  split
  · exact .failed s _ (Touched.refl _ _ _)
  have h := scField_advances dc 0 s
  generalize scField dc 0 s = r at h
  cases h with
  | raised e t touched => exact .failed t e touched
  | reached q t le fits touched written =>
    have h2 := tpduFields_advances dc q t
    simp only [close_reached]
    generalize tpduFields dc q t = r2 at h2
    cases h2 with
    | raised e u tu =>
      exact .failed u e ((touched.mono le_rfl fits).trans
        (tu.mono (by omega) (le_of_eq touched.effCap)))
    | reached q' u le' fits' tu wu =>
      refine .finished u q' (q' - q) ((touched.mono le_rfl le').trans (tu.mono (by omega) le_rfl))
        (by rw [touched.effCap] at fits'; exact fits') (by omega) ?_
      intro k hk
      by_cases hkq : k < q
      · rw [tu.outside k (.inl hkq)]
        exact written k (by omega) hkq
      · exact wu k (by omega) hk

end Sys2Proof.Machine
end

