-- ==== Sys2Proof/Laws/Commands.lean ====
section
/-! SUPPORT. What a command and a port event can do, said once: how every command ends, what the
packing commands write when they succeed, what HEX_FORMAT writes, and where the registers stand in
the host map. -/

namespace Sys2Proof.Machine

/-! ### HEX_FORMAT -/

/-- HEX_FORMAT: reads of OUT, the hex text at HEX, HEX_COUNT and STATUS (R89). -/
theorem hexFormatEffect_eq (s : State) :
    hexFormatEffect s =
      { (s.readBytes 0x0000 s.resultLen.val).2.putBytes 0x0400
          ((hexText (s.readBytes 0x0000 s.resultLen.val).1).map some) with
        hexCount := Fin.ofNat 513 (2 * s.resultLen.val), status := .ok } := rfl

/-- What HEX_FORMAT does before it sets HEX_COUNT and STATUS. -/
theorem hexFormat_touched (s : State) :
    Touched 0x0400 (0x0400 + 2 * s.resultLen.val) s
      ((s.readBytes 0x0000 s.resultLen.val).2.putBytes 0x0400
        ((hexText (s.readBytes 0x0000 s.resultLen.val).1).map some)) := by
  have h := touched_putBytes (s.readBytes 0x0000 s.resultLen.val).2 0x0400
    ((hexText (s.readBytes 0x0000 s.resultLen.val).1).map some)
  rw [List.length_map, length_hexText, readBytes_length] at h
  exact (touched_readBytes s _ _ _ _).trans h

theorem hexFormat_hexCount (s : State) :
    (hexFormatEffect s).hexCount.val = 2 * s.resultLen.val := by
  have := s.resultLen.isLt
  rw [hexFormatEffect_eq]
  show (2 * s.resultLen.val) % 513 = _
  omega

/-! ### Every command -/

/-- How a command ends: a packing command through one of its two exits, HEX_FORMAT with its text. -/
theorem exec_cases (i : Instr) (s : State) :
    (Packs i ∧ ∃ t, exec i s = .next t ∧ Ends s t) ∨
      (i = .hexFormat ∧ exec i s = .next (hexFormatEffect s)) := by
  cases i with
  | packPhone src => exact .inl ⟨trivial, _, rfl, packPhoneWith_ends _ src s⟩
  | packText => exact .inl ⟨trivial, _, rfl, packTextEffect_ends s⟩
  | encodePdu => exact .inl ⟨trivial, _, rfl, encodePduWith_ends _ s⟩
  | hexFormat => exact .inr ⟨rfl, rfl⟩

theorem packs_ends (i : Instr) (s t : State) (hp : Packs i) (h : exec i s = .next t) :
    Ends s t := by
  rcases exec_cases i s with ⟨-, u, hu, he⟩ | ⟨rfl, -⟩
  · rw [hu] at h
    cases h
    exact he
  · exact hp.elim

/-- The registers after a success exit whose length fits OUT. -/
theorem finish_finishedWith (s : State) (len tpdu : Nat) (h : len ≤ 256) (h' : tpdu ≤ 256) :
    FinishedWith (s.finish len tpdu) len tpdu where
  status := rfl
  resultLen := by show len % 257 = len; omega
  tpduLen := by show tpdu % 257 = tpdu; omega
  hexCount := rfl

theorem raise_failedWith (s : State) (e : EncodeError) : FailedWith (s.raise e) e.status :=
  ⟨rfl, rfl, rfl, rfl⟩

theorem Touched.sameInputRegs {lo hi : Nat} {s t : State} (h : Touched lo hi s t) :
    SameInputRegs s t := ⟨h.scLen, h.daLen, h.textLen, h.outCap⟩

theorem Touched.samePort {lo hi : Nat} {s t : State} (h : Touched lo hi s t) :
    SamePort s t := ⟨h.port, h.observed⟩

/-- A command that ended touched only OUT below the capacity, apart from the result registers. -/
theorem Ends.frame {s t : State} (h : Ends s t) :
    SameInputRegs s t ∧ SamePort s t ∧ SameBytesOutside s t 0 s.effCap := by
  cases h with
  | finished u len tpdu touched fits part written =>
    exact ⟨⟨touched.scLen, touched.daLen, touched.textLen, touched.outCap⟩,
      ⟨touched.port, touched.observed⟩, fun x hx => touched.outside x (by omega)⟩
  | failed u e touched =>
    refine ⟨⟨?_, ?_, ?_, ?_⟩, ⟨?_, ?_⟩, fun x hx => ?_⟩
    · rw [raise_scLen, touched.scLen]
    · rw [raise_daLen, touched.daLen]
    · rw [raise_textLen, touched.textLen]
    · rw [raise_outCap, touched.outCap]
    · rw [raise_port, touched.port]
    · rw [raise_observed, touched.observed]
    · rw [raise_peek_outside u e x (by rw [touched.effCap]; omega), touched.outside x (by omega)]

/-! ### Characters and digits -/

/-- The model's STRICT check and the statements' word for it. -/
theorem all_isDigit_iff_not_hasNonDigit (cs : List Byte) :
    cs.all isDigit = true ↔ ¬ HasNonDigit cs := by
  rw [all_isDigit_iff]
  constructor
  · rintro h ⟨k, hk, hn⟩
    exact hn ((isDigit_iff _).mp (h k hk))
  · intro h k hk
    by_contra hn
    exact h ⟨k, hk, fun hd => hn ((isDigit_iff _).mpr hd)⟩

theorem all_isDigit_false_iff (cs : List Byte) :
    cs.all isDigit = false ↔ HasNonDigit cs := by
  rw [← Bool.not_eq_true, all_isDigit_iff_not_hasNonDigit, not_not]

/-- The semi-octets of digits are all values, none a draw. -/
theorem semiOctets_of_digits (cs : List Byte) (h : cs.all isDigit = true) :
    ∃ bs : List Byte, semiOctets cs = bs.map some := by
  induction cs using semiOctets.induct with
  | case1 => exact ⟨[], rfl⟩
  | case2 c =>
    have hc : isDigit c = true := by simpa using h
    exact ⟨[_], by rw [semiOctets, lastOctet_digit c hc]; rfl⟩
  | case3 c0 c1 rest ih =>
    simp only [List.all_cons, Bool.and_eq_true] at h
    obtain ⟨bs, hbs⟩ := ih h.2.2
    exact ⟨_ :: bs, by rw [semiOctets, pairOctet_digits c0 c1 h.1 h.2.1, hbs]; rfl⟩

/-- The entry of the semi-octets of a digit string, as R62 gives it. -/
theorem semiOctets_entry (cs : List Byte) (m : Nat) (hm : m < ceilDiv cs.length 2)
    (h : cs.all isDigit = true) :
    (semiOctets cs)[m]? = some (some (BitVec.ofNat 8
      (((cs.getD (2 * m) 0#8).toNat - 0x30) +
        16 * (if 2 * m + 1 < cs.length then (cs.getD (2 * m + 1) 0#8).toNat - 0x30 else 0xF)))) := by
  have hd := (all_isDigit_iff cs).mp h
  simp only [ceilDiv] at hm
  by_cases hp : 2 * m + 1 < cs.length
  · rw [semiOctets_pair cs m hp, pairOctet_digits _ _ (hd _ (by omega)) (hd _ hp), if_pos hp]
  · rw [semiOctets_last cs m (by omega), lastOctet_digit _ (hd _ (by omega)), if_neg hp]

/-! ### The host map -/

theorem regionOf_buffer (a : Addr) (h : a.toNat < 0x0600) : ∃ b, regionOf a = .buffer b := by
  unfold regionOf
  split_ifs <;> exact ⟨_, rfl⟩

theorem regionOf_register (r : Reg) : regionOf r.addr = .register r := by
  cases r <;> decide

theorem regionOf_reserved (a : Addr) (h : 0x060E ≤ a.toNat) : regionOf a = .reserved := by
  have hne : ∀ r : Reg, (r.addr == a) = false := by
    intro r
    simp only [beq_eq_false_iff_ne, ne_eq]
    rintro rfl
    cases r <;> simp [Reg.addr] at h
  unfold regionOf
  rw [if_neg (by omega), if_neg (by omega), if_neg (by omega), if_neg (by omega),
    if_neg (by omega)]
  simp [Reg.all, hne]

/-- A read of a buffer byte. -/
theorem memRead_buffer (s : State) (dc : DigitCheck) (a : Addr) (h : a.toNat < 0x0600) :
    s.memRead dc a = s.readByte a.toNat := by
  obtain ⟨b, hb⟩ := regionOf_buffer a h
  simp [State.memRead, hb]

theorem memRead_register (s : State) (dc : DigitCheck) (r : Reg) :
    s.memRead dc r.addr = (s.readReg dc r, s) := by
  simp [State.memRead, regionOf_register]

theorem memRead_reserved (s : State) (dc : DigitCheck) (a : Addr) (h : 0x060E ≤ a.toNat) :
    s.memRead dc a = (0x00#8, s) := by
  simp [State.memRead, regionOf_reserved a h]

/-- The addresses 0x0600 to 0x060D are those of the registers. -/
theorem exists_register (a : Addr) (h : 0x0600 ≤ a.toNat) (h' : a.toNat < 0x060E) :
    ∃ r : Reg, a = r.addr := by
  have key : ∀ k : Fin 14, Reg.all.any (fun r => r.addr == BitVec.ofNat 16 (0x0600 + k.val)) = true := by
    decide
  have hk := key ⟨a.toNat - 0x0600, by omega⟩
  obtain ⟨r, -, hr⟩ := List.any_eq_true.mp hk
  refine ⟨r, ?_⟩
  rw [eq_of_beq hr]
  apply BitVec.eq_of_toNat_eq
  simp only [BitVec.toNat_ofNat]
  omega

theorem hostRead_written (s : State) (dc : DigitCheck) (a : Addr) (v : Byte)
    (h : a.toNat < 0x0600) (hp : s.peek a.toNat = some v) :
    s.hostRead dc a = { s with observed := s.observed ++ [v] } := by
  unfold State.hostRead
  rw [memRead_buffer s dc a h, readByte_written s _ v hp]

theorem hostRead_unwritten (s : State) (dc : DigitCheck) (a : Addr)
    (h : a.toNat < 0x0600) (hp : s.peek a.toNat = none) :
    s.hostRead dc a = { s with observed := s.observed ++ [Config.freeByte s.draws],
                               draws := s.draws + 1 } := by
  unfold State.hostRead
  rw [memRead_buffer s dc a h, readByte_unwritten s _ hp]
  rfl

theorem hostRead_register (s : State) (dc : DigitCheck) (r : Reg) :
    s.hostRead dc r.addr = { s with observed := s.observed ++ [s.readReg dc r] } := by
  unfold State.hostRead
  rw [memRead_register]

theorem hostRead_reserved (s : State) (dc : DigitCheck) (a : Addr) (h : 0x060E ≤ a.toNat) :
    s.hostRead dc a = { s with observed := s.observed ++ [0x00#8] } := by
  unfold State.hostRead
  rw [memRead_reserved s dc a h]

/-- A host write to an input buffer stores its byte. -/
theorem hostWrite_input (s : State) (run : Instr → State → Host.Outcome State Fault Refusal)
    (a : Addr) (v : Byte) (h : 0x0100 ≤ a.toNat) (h' : a.toNat < 0x0400) :
    s.hostWrite run a v = .next (s.writeByte a.toNat v) := by
  unfold State.hostWrite regionOf
  rw [if_neg (by omega)]
  split_ifs <;> rfl

/-- A host write to OUT or HEX is ignored. -/
theorem hostWrite_readOnlyBuffer (s : State)
    (run : Instr → State → Host.Outcome State Fault Refusal) (a : Addr) (v : Byte)
    (h : a.toNat < 0x0100 ∨ (0x0400 ≤ a.toNat ∧ a.toNat < 0x0600)) :
    s.hostWrite run a v = .next s := by
  unfold State.hostWrite regionOf
  split_ifs <;> first | rfl | omega

theorem hostWrite_register (s : State)
    (run : Instr → State → Host.Outcome State Fault Refusal) (r : Reg) (v : Byte) :
    s.hostWrite run r.addr v =
      if r = .cmd then s.command run v else .next (s.writeReg v r) := by
  simp [State.hostWrite, regionOf_register]

theorem hostWrite_reserved (s : State)
    (run : Instr → State → Host.Outcome State Fault Refusal) (a : Addr) (v : Byte)
    (h : 0x060E ≤ a.toNat) : s.hostWrite run a v = .next s := by
  simp [State.hostWrite, regionOf_reserved a h]

/-! ### The step -/

theorem step_idle (s : State) (h : s.port = []) : step s = .next s := by
  simp [step, State.takeEvent, h]

theorem step_read (s : State) (a : Addr) (rest : List PortEvent) (h : s.port = .read a :: rest) :
    step s = .next (State.hostRead { s with port := rest } Config.digitCheck a) := by
  simp [step, State.takeEvent, h]

theorem step_write (s : State) (a : Addr) (v : Byte) (rest : List PortEvent)
    (h : s.port = .write a v :: rest) :
    step s = State.hostWrite { s with port := rest } exec a v := by
  simp [step, State.takeEvent, h]

theorem step_reset (s : State) (rest : List PortEvent) (h : s.port = .reset :: rest) :
    step s = .next (State.resetEvent { s with port := rest }) := by
  simp [step, State.takeEvent, h]

end Sys2Proof.Machine
end

