-- ==== Sys2Proof/Laws/Assembler.lean ====
section
/-! SUPPORT. The steps of ENCODE_PDU, each as the list of bytes it lays down from its position, so
that the layout of a whole PDU is the appended lists of its steps. -/

namespace Sys2Proof.Machine

/-- `t` comes from `s` by laying down the bytes `os` from host address `p` on, touching nothing
else. -/
structure Lays (p : Nat) (s : State) (os : List (Option Byte)) (t : State) : Prop where
  touched : Touched p (p + os.length) s t
  value : ∀ k b, os[k]? = some (some b) → t.peek (p + k) = some b

theorem Lays.append {p : Nat} {s t u : State} {xs ys : List (Option Byte)} (h1 : Lays p s xs t)
    (h2 : Lays (p + xs.length) t ys u) : Lays p s (xs ++ ys) u where
  touched := by
    have e : p + (xs ++ ys).length = p + xs.length + ys.length := by
      rw [List.length_append]; omega
    rw [e]
    exact (h1.touched.mono le_rfl (by omega)).trans (h2.touched.mono (by omega) le_rfl)
  value k b hk := by
    by_cases hx : k < xs.length
    · rw [List.getElem?_append_left hx] at hk
      rw [h2.touched.outside _ (.inl (by omega))]
      exact h1.value k b hk
    · rw [List.getElem?_append_right (by omega)] at hk
      have := h2.value _ b hk
      rwa [show p + xs.length + (k - xs.length) = p + k by omega] at this

theorem lays_putBytes (s : State) (p : Nat) (os : List (Option Byte)) :
    Lays p s os (s.putBytes p os) :=
  ⟨touched_putBytes s p os, fun k b hk => putBytes_peek_some s p k os b hk⟩

/-- Reading inputs after laying down OUT bytes without a draw reads what it read before. -/
theorem readBytes_after_out (s t : State) (lo hi a n : Nat) (h : Touched lo hi s t)
    (hd : t.draws = s.draws) (hdisj : hi ≤ a) :
    (t.readBytes a n).1 = (s.readBytes a n).1 ∧
      (t.readBytes a n).2.draws = (s.readBytes a n).2.draws :=
  readBytes_congr t s a n hd (fun k _ => h.outside (a + k) (.inr (by omega)))

theorem putOctets_fits (s : State) (p : Nat) (octets : List Byte)
    (h : p + octets.length ≤ s.effCap) :
    ∃ t, s.putOctets p octets = .reached (p + octets.length) t ∧
      Lays p s (octets.map some) t ∧ t.draws = s.draws := by
  refine ⟨_, ifFits_fits _ _ _ _ h, lays_putBytes s p _, putBytes_draws_values s p octets⟩

theorem putOctets_exceeds (s : State) (p : Nat) (octets : List Byte)
    (h : s.effCap < p + octets.length) :
    s.putOctets p octets = .raised .bufferTooSmall s := ifFits_exceeds _ _ _ _ h

theorem phoneBuffer_base_ge (src : PhoneSource) : 0x0100 ≤ (phoneBuffer src).base := by
  cases src <;> decide

theorem semiOctets_draws (s : State) (p : Nat) (cs : List Byte) (h : cs.all isDigit = true) :
    (s.putBytes p (semiOctets cs)).draws = s.draws := by
  obtain ⟨bs, hbs⟩ := semiOctets_of_digits cs h
  rw [hbs, putBytes_draws_values]

/-- An address field that fits, of digits only. -/
theorem addressField_digits (dc : DigitCheck) (src : PhoneSource) (p : Nat) (s : State)
    (h : p + (2 + ceilDiv (s.phoneLen src) 2) ≤ s.effCap)
    (hd : (s.phoneBytes src).all isDigit = true) :
    ∃ t, addressField dc src p s = .reached (p + 2 + ceilDiv (s.phoneLen src) 2) t ∧
      Lays p s ([some (BitVec.ofNat 8 (s.phoneLen src)), some 0x91#8] ++
        semiOctets (s.phoneBytes src)) t ∧
      t.draws = (s.readBytes (phoneBuffer src).base (s.phoneLen src)).2.draws := by
  unfold addressField
  rw [ifFits_fits _ _ _ _ h]
  have hcap := effCap_le s
  have hbase := phoneBuffer_base_ge src
  set head : List (Option Byte) := [some (BitVec.ofNat 8 (s.phoneLen src)), some Config.toa]
    with hhead
  have l1 := lays_putBytes s p head
  have hrd := readBytes_after_out s (s.putBytes p head) p (p + 2) (phoneBuffer src).base
    (s.phoneLen src) l1.touched rfl (by omega)
  rcases packDigits_cases dc (phoneBuffer src).base (s.phoneLen src) (p + 2)
    (s.putBytes p head) with ⟨-, hf, -⟩ | ⟨-, hr⟩
  · rw [hrd.1] at hf
    exact absurd hd (by rw [State.phoneBytes, hf]; decide)
  · refine ⟨_, hr, ?_, ?_⟩
    · rw [hrd.1]
      have t2 := touched_readBytes (s.putBytes p head) (phoneBuffer src).base (s.phoneLen src) p
        (p + 2)
      have l12 : Lays p s head
          ((s.putBytes p head).readBytes (phoneBuffer src).base (s.phoneLen src)).2 :=
        ⟨l1.touched.trans t2, fun k b hk => by rw [readBytes_peek]; exact l1.value k b hk⟩
      exact l12.append (lays_putBytes _ _ _)
    · rw [semiOctets_draws _ _ _ (by rw [hrd.1]; exact hd), hrd.2]

/-- An address field that fits, with a non-digit, under STRICT. -/
theorem addressField_nonDigit (src : PhoneSource) (p : Nat) (s : State)
    (h : p + (2 + ceilDiv (s.phoneLen src) 2) ≤ s.effCap)
    (hd : (s.phoneBytes src).all isDigit = false) :
    ∃ t, addressField .strict src p s = .raised .invalidDigit t := by
  unfold addressField
  rw [ifFits_fits _ _ _ _ h]
  have hcap := effCap_le s
  have hbase := phoneBuffer_base_ge src
  set head : List (Option Byte) := [some (BitVec.ofNat 8 (s.phoneLen src)), some Config.toa]
    with hhead
  have l1 := lays_putBytes s p head
  have hrd := readBytes_after_out s (s.putBytes p head) p (p + 2) (phoneBuffer src).base
    (s.phoneLen src) l1.touched rfl (by omega)
  rcases packDigits_cases .strict (phoneBuffer src).base (s.phoneLen src) (p + 2)
    (s.putBytes p head) with ⟨-, -, hr⟩ | ⟨ht, -⟩
  · exact ⟨_, hr⟩
  · have := ht rfl
    rw [hrd.1] at this
    rw [State.phoneBytes, this] at hd
    exact absurd hd (by decide)

theorem addressField_exceeds (dc : DigitCheck) (src : PhoneSource) (p : Nat) (s : State)
    (h : s.effCap < p + (2 + ceilDiv (s.phoneLen src) 2)) :
    addressField dc src p s = .raised .bufferTooSmall s := ifFits_exceeds _ _ _ _ h

theorem userDataField_fits (p : Nat) (s : State)
    (h : p + (1 + ceilDiv (7 * s.textLen.toNat) 8) ≤ s.effCap) :
    ∃ t, userDataField p s = .reached (p + 1 + ceilDiv (7 * s.textLen.toNat) 8) t ∧
      Lays p s ([some s.textLen] ++ (pack7 s.textBytes).map some) t := by
  unfold userDataField
  rw [ifFits_fits _ _ _ _ h, packSeptets_eq]
  have hcap := effCap_le s
  have l1 := lays_putBytes s p [some s.textLen]
  have hrd := readBytes_after_out s (s.putBytes p [some s.textLen]) p (p + 1)
    Buffer.textIn.base s.textLen.toNat l1.touched rfl
    (by show p + 1 ≤ 0x0300; omega)
  refine ⟨_, rfl, ?_⟩
  rw [hrd.1]
  have t2 := touched_readBytes (s.putBytes p [some s.textLen]) Buffer.textIn.base
    s.textLen.toNat p (p + 1)
  have l12 : Lays p s [some s.textLen]
      ((s.putBytes p [some s.textLen]).readBytes Buffer.textIn.base s.textLen.toNat).2 :=
    ⟨l1.touched.trans t2, fun k b hk => by rw [readBytes_peek]; exact l1.value k b hk⟩
  exact l12.append (lays_putBytes _ _ _)

theorem userDataField_exceeds (p : Nat) (s : State)
    (h : s.effCap < p + (1 + ceilDiv (7 * s.textLen.toNat) 8)) :
    userDataField p s = .raised .bufferTooSmall s := ifFits_exceeds _ _ _ _ h

end Sys2Proof.Machine
end

