-- ==== Sys2Proof/Laws/PerInstr.lean ====
section
/-! SUPPORT. Statements made for every constructor of Instr, one lemma each. -/

namespace Sys2Proof.Laws.EncodesLegal

/-- The command is well formed, and every field of its byte passes the checks of R55. -/
def Statement (i : Instr) : Prop :=
  i.wf = true ∧ WellFormed.reservedZero (encode i) = true ∧
    WellFormed.opSelects (encode i) = true ∧ WellFormed.sourceAllowed (encode i) = true

theorem packPhone (src : PhoneSource) : Statement (.packPhone src) := by
  cases src <;> exact ⟨rfl, by decide, by decide, by decide⟩

theorem packText : Statement .packText := ⟨rfl, by decide, by decide, by decide⟩

theorem encodePdu : Statement .encodePdu := ⟨rfl, by decide, by decide, by decide⟩

theorem hexFormat : Statement .hexFormat := ⟨rfl, by decide, by decide, by decide⟩

end Sys2Proof.Laws.EncodesLegal
end

