-- ==== Sys2Proof/Tests/Slice0.lean ====
section
/-! SUPPORT. Tests: the command bytes written out from 30_encoding.md, ill-formed terms that each
check refuses, one-step vectors of 95_test_vectors.md, and for every statement with hypotheses a
concrete state and operands that meet them. -/

namespace Sys2Proof.Tests

open Sys2Proof Sys2Proof.Machine

/-! ### Small states -/

/-- The block after the host has loaded its three strings and a capacity (R59). -/
def loaded (sc da text : List Byte) (cap : BitVec 9) : State :=
  { ((State.reset.putBytes 0x0100 (sc.map some)).putBytes 0x0200 (da.map some)).putBytes 0x0300
      (text.map some) with
    scLen := BitVec.ofNat 8 sc.length, daLen := BitVec.ofNat 8 da.length,
    textLen := BitVec.ofNat 8 text.length, outCap := cap }

/-- The block with a result in OUT, as a packing command leaves it. -/
def withResult (out : List Byte) : State :=
  { State.reset.putBytes 0 (out.map some) with resultLen := Fin.ofNat 257 out.length }

/-- A state with one port event to come. -/
def facing (s : State) (e : PortEvent) : State := { s with port := [e] }

/-- The state an outcome goes on to. -/
def nextOf : Host.Outcome State Fault Refusal → Option State
  | .next t => some t
  | .fault _ => none
  | .refused _ => none

/-- The bytes held from an address on. -/
def bytesAt (s : State) (a n : Nat) : List (Option Byte) :=
  (List.range n).map fun k => s.peek (a + k)

/-- The status code, result length, TPDU length and result bytes a command leaves. -/
def resultOf (o : Host.Outcome State Fault Refusal) (n : Nat) :
    Option (Byte × Nat × Nat × List (Option Byte)) :=
  (nextOf o).map fun t => (t.status.code, t.resultLen.val, t.tpduLen.val, bytesAt t 0 n)

/-! ### Decoding: words written bit by bit from R50 to R54 (ZZZZ S OOO) -/

theorem test_decode_pack_phone_sc : decode 0b0000_0_001#8 = .ok (.packPhone .sc) := by decide
theorem test_decode_pack_phone_da : decode 0b0000_1_001#8 = .ok (.packPhone .da) := by decide
theorem test_decode_pack_text : decode 0b0000_0_010#8 = .ok .packText := by decide
theorem test_decode_encode_pdu : decode 0b0000_0_011#8 = .ok .encodePdu := by decide
theorem test_decode_hex_format : decode 0b0000_0_100#8 = .ok .hexFormat := by decide

/-- The illegal bytes 95_test_vectors.md lists, each by the field at fault. -/
theorem test_decode_illegal :
    ([0x00#8, 0x05#8, 0x06#8, 0x07#8, 0x08#8, 0x0F#8].all
      fun b => decide (decode b = .error .unknownOperation)) ∧
    ([0x0A#8, 0x0B#8, 0x0C#8].all fun b => decide (decode b = .error .straySource)) ∧
    ([0x10#8, 0x11#8, 0x13#8, 0x19#8, 0x81#8, 0xFF#8].all
      fun b => decide (decode b = .error .reservedBits)) := by decide

/-- Opcode-table words of one byte; a word that does not fit one byte is no command (R57). -/
theorem test_decode_table_word :
    decodeTableWord 8 0x01 = some (.packPhone .sc) ∧
    decodeTableWord 8 0x04 = some .hexFormat ∧
    decodeTableWord 8 0x05 = none ∧ decodeTableWord 8 0x102 = none := by decide

/-! ### Ill-formed terms, one for each check -/

/-- R53: `Z` is not 0000, the rest is PACK_PHONE's. -/
theorem test_wf_reserved_zero : WellFormed.reservedZero 0x11#8 = false ∧
    WellFormed.opSelects 0x11#8 = true ∧ WellFormed.commandByte 0x11#8 = false := by decide

/-- R51: OP = 101 selects nothing. -/
theorem test_wf_op_selects : WellFormed.opSelects 0x05#8 = false ∧
    WellFormed.reservedZero 0x05#8 = true ∧ WellFormed.commandByte 0x05#8 = false := by decide

/-- R52: S = 1 with PACK_TEXT. -/
theorem test_wf_source_allowed : WellFormed.sourceAllowed 0x0A#8 = false ∧
    WellFormed.opSelects 0x0A#8 = true ∧ WellFormed.commandByte 0x0A#8 = false := by decide

/-- R59: a string over 255 characters, a capacity VAL that is no byte, a buffer `rdbuf` does not
name. -/
theorem test_wf_host_lines :
    (HostLine.ldSc (List.replicate 256 0x31#8)).wf = false ∧
    (HostLine.ldText (List.replicate 255 0x61#8)).wf = true ∧
    (HostLine.setCap 65536).wf = false ∧ (HostLine.setCap 256).wf = true ∧
    (HostLine.rdbuf .scIn 1).wf = false ∧ (HostLine.rdbuf .hex 512).wf = true := by
  refine ⟨?_, ?_, ?_, ?_, ?_, ?_⟩ <;> decide +kernel

/-! ### Commands: vectors of 95_test_vectors.md -/

/-- V-P7 (W2): "123" gives 21 F3. -/
theorem test_pack_phone_odd :
    resultOf (exec (.packPhone .sc) (loaded [0x31#8, 0x32#8, 0x33#8] [] [] 256#9)) 3 =
      some (0x00#8, 2, 0, [some 0x21#8, some 0xF3#8, none]) := by decide

/-- V-P23: S = 1 packs DA "42" to 24 while SC holds "99"; V-P17: "12a4" at capacity 1 fails with
code 4, and V-P16 at capacity 2 with code 1. -/
theorem test_pack_phone_source_and_errors :
    resultOf (exec (.packPhone .da) (loaded [0x39#8, 0x39#8] [0x34#8, 0x32#8] [] 256#9)) 1 =
      some (0x00#8, 1, 0, [some 0x24#8]) ∧
    resultOf (exec (.packPhone .sc) (loaded [0x31#8, 0x32#8, 0x61#8, 0x34#8] [] [] 1#9)) 0 =
      some (0x04#8, 0, 0, []) ∧
    resultOf (exec (.packPhone .sc) (loaded [0x31#8, 0x32#8, 0x61#8, 0x34#8] [] [] 2#9)) 0 =
      some (0x01#8, 0, 0, []) := by
  refine ⟨?_, ?_, ?_⟩ <;> decide

/-- V-T6 (W5): "Hi!" gives C8 74 08; V-T13 (W13): C8 E9 is masked and gives C8 34. -/
theorem test_pack_text_hi :
    resultOf (exec .packText (loaded [] [] [0x48#8, 0x69#8, 0x21#8] 256#9)) 3 =
      some (0x00#8, 3, 0, [some 0xC8#8, some 0x74#8, some 0x08#8]) ∧
    resultOf (exec .packText (loaded [] [] [0xC8#8, 0xE9#8] 256#9)) 2 =
      some (0x00#8, 2, 0, [some 0xC8#8, some 0x34#8]) := by decide

/-- V-T12: "123456789", the wrap after eight characters and a partial byte. -/
theorem test_pack_text_wrap :
    resultOf (exec .packText (loaded [] []
        [0x31#8, 0x32#8, 0x33#8, 0x34#8, 0x35#8, 0x36#8, 0x37#8, 0x38#8, 0x39#8] 256#9)) 8 =
      some (0x00#8, 8, 0, [some 0x31#8, some 0xD9#8, some 0x8C#8, some 0x56#8, some 0xB3#8,
        some 0xDD#8, some 0x70#8, some 0x39#8]) := by decide

/-- V-E4: SC "31", DA "0123456789", text "Hi!": 19 bytes, TPDU 16. -/
theorem test_encode_pdu_with_service_center :
    resultOf (exec .encodePdu (loaded [0x33#8, 0x31#8]
        [0x30#8, 0x31#8, 0x32#8, 0x33#8, 0x34#8, 0x35#8, 0x36#8, 0x37#8, 0x38#8, 0x39#8]
        [0x48#8, 0x69#8, 0x21#8] 256#9)) 19 =
      some (0x00#8, 19, 16,
        [0x02#8, 0x91#8, 0x13#8, 0x11#8, 0x00#8, 0x0A#8, 0x91#8, 0x10#8, 0x32#8, 0x54#8, 0x76#8,
          0x98#8, 0x00#8, 0x00#8, 0xB0#8, 0x03#8, 0xC8#8, 0x74#8, 0x08#8].map some) := by decide

/-- V-E22: no service center, DA "1", no text, an exact fit of 10 bytes; V-E23: at 9 code 4. V-E12
and V-E14: SC "1", DA "1x" gives code 1 at capacity 8 and code 4 at 7. V-E30: code 2 at 0. -/
theorem test_encode_pdu_edges :
    resultOf (exec .encodePdu (loaded [] [0x31#8] [] 10#9)) 10 =
      some (0x00#8, 10, 9, [0x00#8, 0x11#8, 0x00#8, 0x01#8, 0x91#8, 0xF1#8, 0x00#8, 0x00#8,
        0xB0#8, 0x00#8].map some) ∧
    resultOf (exec .encodePdu (loaded [] [0x31#8] [] 9#9)) 0 = some (0x04#8, 0, 0, []) ∧
    resultOf (exec .encodePdu (loaded [0x31#8] [0x31#8, 0x78#8] [] 8#9)) 0 =
      some (0x01#8, 0, 0, []) ∧
    resultOf (exec .encodePdu (loaded [0x31#8] [0x31#8, 0x78#8] [] 7#9)) 0 =
      some (0x04#8, 0, 0, []) ∧
    resultOf (exec .encodePdu (loaded [] [] [] 0#9)) 0 = some (0x02#8, 0, 0, []) := by
  refine ⟨?_, ?_, ?_, ?_, ?_⟩ <;> decide

/-- V-H1: 21 F3 becomes "21F3", four characters, and HEX past them stays. -/
theorem test_hex_format_two_bytes :
    (nextOf (exec .hexFormat (withResult [0x21#8, 0xF3#8]))).map
        (fun t => (t.hexCount.val, t.resultLen.val, bytesAt t 0x0400 5)) =
      some (4, 2, [some 0x32#8, some 0x31#8, some 0x46#8, some 0x33#8, none]) := by decide

/-- V-H9 and V-X4: right after reset nothing is formatted. -/
theorem test_hex_format_after_reset :
    (nextOf (exec .hexFormat State.reset)).map
        (fun t => (t.status.code, t.hexCount.val, t.mem.length)) = some (0x00#8, 0, 0) := by decide

/-! ### The port: vectors V-R1 to V-R14 -/

/-- V-R4: OUT_CAP_HI takes data bit 0 only; with 511 stored, V-E31's effective capacity is 256. -/
theorem test_out_cap_hi :
    (nextOf (step (facing (loaded [] [] [] 255#9) (.write 0x060D#16 0xFF#8)))).map
      (fun t => (t.outCap, t.effCap)) = some (511#9, 256) := by decide

/-- V-R9 and V-R11: the host cannot write OUT; an input buffer byte reads back. -/
theorem test_host_writes :
    nextOf (step (facing (withResult [0x21#8]) (.write 0x0000#16 0x99#8))) =
      some (withResult [0x21#8]) ∧
    (nextOf (step (facing (loaded [0x37#8] [] [] 256#9) (.read 0x0100#16)))).map State.observed =
      some [0x37#8] := by decide

/-- The CMD write runs its command, and `withFetchWord` is that write (R16). -/
theorem test_cmd_write_runs :
    (nextOf (step ((loaded [] [] [0x41#8] 256#9).withFetchWord 8 0x02))).map
      (fun t => (t.resultLen.val, t.peek 0)) = some (1, some 0x41#8) := by decide

/-- Two lines of program P5 (R59): W 0x0200 0x39, W 0x0609 0x01; W 0x0600 0x09. -/
theorem test_ld_da_expands :
    assemble [.ldDa [0x39#8], .cmd (.packPhone .da)] =
      some [.write 0x0200#16 0x39#8, .write 0x0609#16 0x01#8, .write 0x0600#16 0x09#8] := by decide

/-! ### Witnesses: for each statement with hypotheses, a state and operands that meet them -/

/-- The four digits "1234" in both digit buffers and "Hi!" as text, under a capacity. -/
def plain (cap : BitVec 9) : State :=
  loaded [0x31#8, 0x32#8, 0x33#8, 0x34#8] [0x31#8, 0x32#8, 0x33#8, 0x34#8]
    [0x48#8, 0x69#8, 0x21#8] cap

/-- "1a" as service center, "12" as destination, no text. -/
def badSc (cap : BitVec 9) : State := loaded [0x31#8, 0x61#8] [0x31#8, 0x32#8] [] cap

/-- "12" as service center, "1a" as destination, no text. -/
def badDa (cap : BitVec 9) : State := loaded [0x31#8, 0x32#8] [0x31#8, 0x61#8] [] cap

/-- The block after PACK_PHONE of "1234" and HEX_FORMAT: HEX_COUNT is 4 (R89's example). -/
def formatted : State := hexFormatEffect (withResult [0x21#8, 0x43#8])

/-- Every character of a string is a digit, when all of them are. -/
theorem digits_only (cs : List Byte) (h : cs.all isDigit = true) : ¬ HasNonDigit cs :=
  (all_isDigit_iff_not_hasNonDigit cs).mp h

theorem test_witness_DecodeAndEncodeAreInverse : decode 0x09#8 = .ok (.packPhone .da) := by decide

/-- IllegalBytesByField and IllegalByteSetsStatusOnly. -/
theorem test_witness_illegal_byte_at_the_port :
    decode 0xFF#8 = .error .reservedBits ∧
    (facing State.reset (.write 0x0600#16 0xFF#8)).port = .write 0x0600#16 0xFF#8 :: [] := by
  decide

theorem test_witness_StepRunsDecodedCommand :
    (facing State.reset (.write 0x0600#16 0x09#8)).port = .write 0x0600#16 0x09#8 :: [] ∧
    decode 0x09#8 = .ok (.packPhone .da) ∧ (Instr.packPhone .da).wf = true := by decide

/-- HostReadReturnsTheMap: the first and last register, the edges of the reserved range, and the
last buffer byte, written. -/
theorem test_witness_HostReadReturnsTheMap :
    (facing State.reset (.read 0x0600#16)).port = .read 0x0600#16 :: [] ∧
    ((0x0600#16, 0x00#8) : Addr × Byte) ∈ [((0x0600#16, 0x00#8) : Addr × Byte)] ∧
    (facing State.reset (.read 0x060D#16)).port = .read 0x060D#16 :: [] ∧
    BitVec.ofNat 8 (State.reset.outCap.toNat / 256) = 0x01#8 ∧
    (facing State.reset (.read 0x060E#16)).port = .read 0x060E#16 :: [] ∧
    0x060E ≤ (0x060E#16 : Addr).toNat ∧ 0x060E ≤ (0xFFFF#16 : Addr).toNat ∧
    (facing (State.reset.writeByte 0x05FF 0x41#8) (.read 0x05FF#16)).port =
      .read 0x05FF#16 :: [] ∧
    (0x05FF#16 : Addr).toNat < 0x0600 ∧
    (State.reset.writeByte 0x05FF 0x41#8).peek (0x05FF#16 : Addr).toNat = some 0x41#8 ∧
    (State.reset.writeByte 0x0000 0x41#8).peek (0x0000#16 : Addr).toNat = some 0x41#8 := by decide

/-- HostReadsAreIdempotent: a register, a written byte, and an unwritten one. -/
theorem test_witness_HostReadsAreIdempotent :
    0x0600 ≤ (0x0600#16 : Addr).toNat ∧
    ((State.reset.writeByte 0x05FF 0x41#8).peek (0x05FF#16 : Addr).toNat).isSome = true ∧
    ((0x05FF#16 : Addr).toNat < 0x0600 ∧ State.reset.peek (0x05FF#16 : Addr).toNat = none) ∧
    State.reset.peek (0x0000#16 : Addr).toNat = none := by decide

/-- HostWriteStoresInputByte: the first and the last input byte; the memory is canonical. -/
theorem test_witness_HostWriteStoresInputByte :
    (facing (plain 256#9) (.write 0x0100#16 0x39#8)).port = .write 0x0100#16 0x39#8 :: [] ∧
    0x0100 ≤ (0x0100#16 : Addr).toNat ∧ (0x0100#16 : Addr).toNat < 0x0400 ∧
    (facing (plain 256#9) (.write 0x03FF#16 0x39#8)).port = .write 0x03FF#16 0x39#8 :: [] ∧
    0x0100 ≤ (0x03FF#16 : Addr).toNat ∧ (0x03FF#16 : Addr).toNat < 0x0400 ∧
    Memory.wf (plain 256#9).mem := by
  refine ⟨rfl, by decide, by decide, rfl, by decide, by decide, by decide⟩

theorem test_witness_HostWriteStoresLength :
    (facing State.reset (.write 0x0608#16 0xFF#8)).port = .write 0x0608#16 0xFF#8 :: [] ∧
    (facing State.reset (.write 0x0609#16 0xFF#8)).port = .write 0x0609#16 0xFF#8 :: [] ∧
    (facing State.reset (.write 0x060A#16 0xFF#8)).port = .write 0x060A#16 0xFF#8 :: [] := by
  decide

theorem test_witness_OutCapIsWrittenInHalves :
    (facing State.reset (.write 0x060C#16 0xFF#8)).port = .write 0x060C#16 0xFF#8 :: [] ∧
    (facing State.reset (.write 0x060D#16 0xFF#8)).port = .write 0x060D#16 0xFF#8 :: [] ∧
    (plain 256#9).effCap = 256 ∧ (plain 257#9).effCap = 256 ∧ (plain 255#9).effCap = 255 := by
  decide

/-- IgnoredWritesChangeNothing: the edges of every read-only and reserved range. -/
theorem test_witness_IgnoredWritesChangeNothing :
    (facing State.reset (.write 0x00FF#16 0x55#8)).port = .write 0x00FF#16 0x55#8 :: [] ∧
    (0x00FF#16 : Addr).toNat < 0x0100 ∧
    (0x0400 ≤ (0x0400#16 : Addr).toNat ∧ (0x0400#16 : Addr).toNat < 0x0600) ∧
    (0x0400 ≤ (0x05FF#16 : Addr).toNat ∧ (0x05FF#16 : Addr).toNat < 0x0600) ∧
    (0x0601 ≤ (0x0601#16 : Addr).toNat ∧ (0x0601#16 : Addr).toNat ≤ 0x0607) ∧
    (0x0601 ≤ (0x0607#16 : Addr).toNat ∧ (0x0607#16 : Addr).toNat ≤ 0x0607) ∧
    (0x060B#16 : Addr).toNat = 0x060B ∧ 0x060E ≤ (0x060E#16 : Addr).toNat ∧
    0x060E ≤ (0xFFFF#16 : Addr).toNat ∧
    (facing State.reset (.read 0x0600#16)).port = .read 0x0600#16 :: [] ∧
    (facing State.reset (.read 0x060E#16)).port = .read 0x060E#16 :: [] ∧
    (0x0600#16 : Addr).toNat = 0x0600 := by
  refine ⟨rfl, ?_, ?_, ?_, ?_, ?_, rfl, ?_, ?_, rfl, rfl, rfl⟩ <;> decide

theorem test_witness_ResetEventRestoresReset :
    (facing (plain 2#9) .reset).port = .reset :: [] := rfl

theorem test_witness_ConfigReadsTheBuildParameter :
    (facing State.reset (.read 0x060B#16)).port = .read 0x060B#16 :: [] ∧
    (facing State.reset (.write 0x060B#16 0x01#8)).port = .write 0x060B#16 0x01#8 :: [] := by decide

theorem test_witness_IdleBlockHoldsItsState : State.reset.port = [] := rfl

/-- ErrorExitDiscardsOutAndResults, PackingCommandsFrame, HexCountFollowsTheCommands and
StatusOfEachCommand: each packing command fails at a capacity one below its need (W8). -/
theorem test_witness_ErrorExitDiscardsOutAndResults :
    Packs (.packPhone .sc) ∧ Packs (.packPhone .da) ∧ Packs .packText ∧ Packs .encodePdu ∧
    (∃ t, exec (.packPhone .sc) (plain 1#9) = .next t ∧ t.status ≠ .ok) ∧
    (∃ t, exec (.packPhone .da) (plain 1#9) = .next t ∧ t.status ≠ .ok) ∧
    (∃ t, exec .packText (plain 2#9) = .next t ∧ t.status ≠ .ok) ∧
    (∃ t, exec .encodePdu (plain 16#9) = .next t ∧ t.status ≠ .ok) :=
  ⟨trivial, trivial, trivial, trivial, ⟨_, rfl, by decide⟩, ⟨_, rfl, by decide⟩,
    ⟨_, rfl, by decide⟩, ⟨_, rfl, by decide⟩⟩

/-- SuccessExitKeepsTheRest, PackingCommandsFrame, TpduLenExcludesTheServiceCenter and
EncodePduSucceedsExactly: each packing command succeeds at the exact fit. -/
theorem test_witness_SuccessExitKeepsTheRest :
    (∃ t, exec (.packPhone .sc) (plain 2#9) = .next t ∧ t.status = .ok) ∧
    (∃ t, exec (.packPhone .da) (plain 2#9) = .next t ∧ t.status = .ok) ∧
    (∃ t, exec .packText (plain 3#9) = .next t ∧ t.status = .ok) ∧
    (∃ t, exec .encodePdu (plain 17#9) = .next t ∧ t.status = .ok) :=
  ⟨⟨_, rfl, by decide⟩, ⟨_, rfl, by decide⟩, ⟨_, rfl, by decide⟩, ⟨_, rfl, by decide⟩⟩

/-- HexFormatFrame, StatusOfEachCommand and EngineNeverWritesInputs:
HEX_FORMAT of two bytes, and an illegal byte and a legal one at the port. -/
theorem test_witness_HexFormatFrame :
    (∃ t, exec .hexFormat (withResult [0x21#8, 0x43#8]) = .next t) ∧
    (∃ t, step (facing formatted (.write 0x0600#16 0x05#8)) = .next t) ∧
    (∃ t, step (facing (plain 2#9) (.write 0x0600#16 0x01#8)) = .next t) ∧
    decode 0x05#8 = .error .unknownOperation :=
  ⟨⟨_, rfl⟩, ⟨_, rfl⟩, ⟨_, rfl⟩, by decide⟩

/-- HexCountFollowsTheCommands: a host write to HEX_COUNT_LO while HEX_COUNT is 4. -/
theorem test_witness_HexCountFollowsTheCommands :
    (0x0606#16 : Addr) ≠ 0x0600#16 ∧
    (facing formatted (.write 0x0606#16 0x55#8)).port = .write 0x0606#16 0x55#8 :: [] ∧
    (∃ t, step (facing formatted (.write 0x0606#16 0x55#8)) = .next t ∧ t.hexCount.val = 4) :=
  ⟨by decide, rfl, _, rfl, by decide⟩

/-- PackPhonePacksDigits: each of its three cases, for both digit strings. The failing and fitting capacities serve its
PASSTHROUGH clause too. -/
theorem test_witness_PackPhonePacksDigits :
    (plain 1#9).effCap < ceilDiv ((plain 1#9).phoneLen .sc) 2 ∧
    (plain 1#9).effCap < ceilDiv ((plain 1#9).phoneLen .da) 2 ∧
    (ceilDiv ((badSc 1#9).phoneLen .sc) 2 ≤ (badSc 1#9).effCap ∧
      HasNonDigit ((badSc 1#9).phoneBytes .sc)) ∧
    (ceilDiv ((badDa 1#9).phoneLen .da) 2 ≤ (badDa 1#9).effCap ∧
      HasNonDigit ((badDa 1#9).phoneBytes .da)) ∧
    (ceilDiv ((plain 2#9).phoneLen .sc) 2 ≤ (plain 2#9).effCap ∧
      ¬ HasNonDigit ((plain 2#9).phoneBytes .sc)) ∧
    (ceilDiv ((plain 2#9).phoneLen .da) 2 ≤ (plain 2#9).effCap ∧
      ¬ HasNonDigit ((plain 2#9).phoneBytes .da)) :=
  ⟨by decide, by decide, ⟨by decide, 1, by decide, by decide⟩,
    ⟨by decide, 1, by decide, by decide⟩, ⟨by decide, digits_only _ (by decide)⟩,
    ⟨by decide, digits_only _ (by decide)⟩⟩

/-- CommandsReadTheWrittenInputs: the first and the last character of each string. -/
theorem test_witness_CommandsReadTheWrittenInputs :
    ((0 < (plain 256#9).scLen.toNat ∧ (plain 256#9).peek (0x0100 + 0) = some 0x31#8) ∧
      (3 < (plain 256#9).scLen.toNat ∧ (plain 256#9).peek (0x0100 + 3) = some 0x34#8)) ∧
    ((0 < (plain 256#9).daLen.toNat ∧ (plain 256#9).peek (0x0200 + 0) = some 0x31#8) ∧
      (3 < (plain 256#9).daLen.toNat ∧ (plain 256#9).peek (0x0200 + 3) = some 0x34#8)) ∧
    ((0 < (plain 256#9).textLen.toNat ∧ (plain 256#9).peek (0x0300 + 0) = some 0x48#8) ∧
      (2 < (plain 256#9).textLen.toNat ∧ (plain 256#9).peek (0x0300 + 2) = some 0x21#8)) := by
  decide

theorem test_witness_UnwrittenBytesReadAsFreshDraws :
    ∀ k, k < 2 → State.reset.peek (0x0300 + k) = none := by decide

theorem test_witness_PackDigitsWritesItsLength :
    (∃ t, packDigits .strict 0x0100 4 7 (plain 256#9) = .reached 9 t) ∧
    (∃ t, packDigits .passthrough 0x0100 2 0 (badSc 256#9) = .reached 1 t) :=
  ⟨⟨_, rfl⟩, ⟨_, rfl⟩⟩

theorem test_witness_PackPhoneAcceptsTheEmptyString :
    ((loaded [] [] [] 0#9).phoneLen .sc = 0 ∧ (loaded [] [] [] 0#9).phoneLen .da = 0) ∧
    (∃ t, exec .encodePdu (loaded [] [] [] 0#9) = .next t ∧ t.status = .emptyDestination) :=
  ⟨by decide, _, rfl, by decide⟩

/-- PassthroughDrawsForNonDigits: "12a" has a whole pair of digits and a last non-digit; "1a5" has
a pair with a non-digit and a last digit (V-P26's shape). -/
theorem test_witness_PassthroughDrawsForNonDigits :
    ceilDiv ((loaded [0x31#8, 0x32#8, 0x61#8] [] [] 2#9).phoneLen .sc) 2 ≤
      (loaded [0x31#8, 0x32#8, 0x61#8] [] [] 2#9).effCap ∧
    (loaded [0x31#8, 0x32#8, 0x61#8] [] [] 2#9).phoneBytes .sc = [0x31#8, 0x32#8, 0x61#8] ∧
    (loaded [0x31#8, 0x61#8, 0x35#8] [] [] 2#9).phoneBytes .sc = [0x31#8, 0x61#8, 0x35#8] ∧
    2 * 0 + 1 < 3 ∧ 2 * 1 + 1 = 3 ∧
    (isDigit 0x31#8 = true ∧ isDigit 0x32#8 = true ∧ isDigit 0x61#8 = false ∧
      isDigit 0x35#8 = true) ∧
    (∃ t, execFor .passthrough (.packPhone .sc)
      (loaded [0x31#8, 0x32#8, 0x61#8] [] [] 2#9) = .next t) :=
  ⟨by decide, by decide, by decide, by decide, by decide, by decide, _, rfl⟩

theorem test_witness_SemiOctetsUnpackToTheDigits :
    [0x30#8, 0x39#8].length % 2 = 0 ∧
    (∀ c ∈ [0x30#8, (0x39#8 : Byte)], 0x30 ≤ c.toNat ∧ c.toNat ≤ 0x39) := by decide

theorem test_witness_PackTextPacksTheText :
    (plain 2#9).effCap < ceilDiv (7 * (plain 2#9).textLen.toNat) 8 ∧
    ceilDiv (7 * (plain 3#9).textLen.toNat) 8 ≤ (plain 3#9).effCap := by decide

/-- Pack7IsTheSeptetStream: the first and the last bit of eight characters' seven bytes. -/
theorem test_witness_Pack7IsTheSeptetStream :
    0 < ceilDiv (7 * (List.replicate 8 0x7F#8).length) 8 ∧
    6 < ceilDiv (7 * (List.replicate 8 0x7F#8).length) 8 ∧ 0 < 8 ∧ 7 < 8 := by decide

/-- PackTextIgnoresTheTopBit: "Hi" and C8 E9 (W13). -/
theorem test_witness_PackTextIgnoresTheTopBit :
    (loaded [] [] [0xC8#8, 0xE9#8] 2#9).textLen = (loaded [] [] [0x48#8, 0x69#8] 2#9).textLen ∧
    (loaded [] [] [0xC8#8, 0xE9#8] 2#9).outCap = (loaded [] [] [0x48#8, 0x69#8] 2#9).outCap ∧
    (∀ k, k < (loaded [] [] [0x48#8, 0x69#8] 2#9).textLen.toNat → ∃ b b',
      (loaded [] [] [0x48#8, 0x69#8] 2#9).peek (0x0300 + k) = some b ∧
      (loaded [] [] [0xC8#8, 0xE9#8] 2#9).peek (0x0300 + k) = some b' ∧
      b.toNat % 128 = b'.toNat % 128) := by
  refine ⟨by decide, by decide, fun k hk => ?_⟩
  have h2 : (loaded [] [] [0x48#8, 0x69#8] 2#9).textLen.toNat = 2 := by decide
  obtain rfl | rfl : k = 0 ∨ k = 1 := by omega
  · exact ⟨0x48#8, 0xC8#8, by decide, by decide, by decide⟩
  · exact ⟨0x69#8, 0xE9#8, by decide, by decide, by decide⟩

theorem test_witness_PackTextNeverFailsAtFullCapacity :
    224 ≤ (plain 224#9).outCap.toNat ∧ 224 ≤ (plain 511#9).outCap.toNat := by decide

/-- EncodePduWritesTheLayout and EncodePduSucceedsExactly: with a service center at the exact fit
of 17 bytes, and without one at 10. -/
theorem test_witness_EncodePduWritesTheLayout :
    ((plain 17#9).daLen.toNat ≠ 0 ∧ (plain 17#9).textLen.toNat ≤ 160 ∧
      ¬ HasNonDigit (plain 17#9).pduSc ∧ ¬ HasNonDigit (plain 17#9).pduDa ∧
      (plain 17#9).pduTotal ≤ (plain 17#9).effCap) ∧
    ((loaded [] [0x31#8] [] 10#9).daLen.toNat ≠ 0 ∧
      (loaded [] [0x31#8] [] 10#9).textLen.toNat ≤ 160 ∧
      ¬ HasNonDigit (loaded [] [0x31#8] [] 10#9).pduSc ∧
      ¬ HasNonDigit (loaded [] [0x31#8] [] 10#9).pduDa ∧
      (loaded [] [0x31#8] [] 10#9).pduTotal ≤ (loaded [] [0x31#8] [] 10#9).effCap) :=
  ⟨⟨by decide, by decide, digits_only _ (by decide), digits_only _ (by decide), by decide⟩,
    ⟨by decide, by decide, digits_only _ (by decide), digits_only _ (by decide), by decide⟩⟩

/-- EncodePduSucceedsExactly's second clause, one byte short of the fit. -/
theorem test_witness_EncodePduSucceedsExactly :
    1 ≤ (plain 16#9).daLen.toNat ∧ (plain 16#9).textLen.toNat ≤ 160 ∧
    ¬ HasNonDigit (plain 16#9).pduSc ∧ ¬ HasNonDigit (plain 16#9).pduDa ∧
    (plain 16#9).effCap < (plain 16#9).pduTotal ∧ (∃ t, exec .encodePdu (plain 16#9) = .next t) :=
  ⟨by decide, by decide, digits_only _ (by decide), digits_only _ (by decide), by decide, _, rfl⟩

/-- EncodePduArgumentChecks: no destination, and a text length of 161 with one. -/
theorem test_witness_EncodePduArgumentChecks :
    State.reset.daLen.toNat = 0 ∧
    (({ State.reset with daLen := 1#8, textLen := 161#8 } : State).daLen.toNat ≠ 0 ∧
      160 < ({ State.reset with daLen := 1#8, textLen := 161#8 } : State).textLen.toNat) := by
  decide

/-- EncodePduDigitErrorPrecedence: each of its four cases at the boundary capacity. -/
theorem test_witness_EncodePduDigitErrorPrecedence :
    ((badSc 3#9).daLen.toNat ≠ 0 ∧ (badSc 3#9).textLen.toNat ≤ 160 ∧
      HasNonDigit (badSc 3#9).pduSc ∧ (badSc 3#9).scFieldSize ≤ (badSc 3#9).effCap) ∧
    ((badSc 2#9).daLen.toNat ≠ 0 ∧ (badSc 2#9).textLen.toNat ≤ 160 ∧
      HasNonDigit (badSc 2#9).pduSc ∧ (badSc 2#9).effCap < (badSc 2#9).scFieldSize) ∧
    ((badDa 8#9).daLen.toNat ≠ 0 ∧ (badDa 8#9).textLen.toNat ≤ 160 ∧
      ¬ HasNonDigit (badDa 8#9).pduSc ∧ HasNonDigit (badDa 8#9).pduDa ∧
      (badDa 8#9).scFieldSize + 4 + ceilDiv (badDa 8#9).daLen.toNat 2 ≤ (badDa 8#9).effCap) ∧
    ((badDa 7#9).daLen.toNat ≠ 0 ∧ (badDa 7#9).textLen.toNat ≤ 160 ∧
      ¬ HasNonDigit (badDa 7#9).pduSc ∧ HasNonDigit (badDa 7#9).pduDa ∧
      (badDa 7#9).effCap < (badDa 7#9).scFieldSize + 4 + ceilDiv (badDa 7#9).daLen.toNat 2) :=
  ⟨⟨by decide, by decide, ⟨1, by decide, by decide⟩, by decide⟩,
    ⟨by decide, by decide, ⟨1, by decide, by decide⟩, by decide⟩,
    ⟨by decide, by decide, digits_only _ (by decide), ⟨1, by decide, by decide⟩, by decide⟩,
    ⟨by decide, by decide, digits_only _ (by decide), ⟨1, by decide, by decide⟩, by decide⟩⟩

/-- TpduLenExcludesTheServiceCenter and ServiceCenterFieldHead: a success with an absent and one
with a present service center. -/
theorem test_witness_ServiceCenterFieldHead :
    (∃ t, exec .encodePdu (loaded [] [0x31#8] [] 10#9) = .next t ∧ t.status = .ok) ∧
    (loaded [] [0x31#8] [] 10#9).scLen.toNat = 0 ∧
    (∃ t, exec .encodePdu (plain 17#9) = .next t ∧ t.status = .ok) ∧
    (plain 17#9).scLen.toNat ≠ 0 :=
  ⟨⟨_, rfl, by decide⟩, by decide, ⟨_, rfl, by decide⟩, by decide⟩

/-- HexCharsAreUpperCase: the ends of both ranges. -/
theorem test_witness_HexCharsAreUpperCase :
    0 ≤ 9 ∧ 9 ≤ 9 ∧ (10 ≤ 10 ∧ 10 ≤ 15) ∧ (10 ≤ 15 ∧ 15 ≤ 15) := by decide

/-- HexFormatWritesTheText and EveryStepKeepsInv: a state that holds a hex text in force. -/
theorem test_witness_HexFormatWritesTheText :
    BlockInv formatted ∧ formatted.hexCount.val = 4 ∧ (∃ t, exec .hexFormat formatted = .next t) ∧
    (0 < (withResult [0x21#8, 0x43#8]).resultLen.val ∧
      (withResult [0x21#8, 0x43#8]).peek 0 = some 0x21#8) ∧
    (1 < (withResult [0x21#8, 0x43#8]).resultLen.val ∧
      (withResult [0x21#8, 0x43#8]).peek 1 = some 0x43#8) := by
  have hl : formatted.resultLen.val = 2 := by decide
  have hc : formatted.hexCount.val = 4 := by decide
  refine ⟨⟨by decide, by decide, fun k hk => ?_, by decide, .inr (by decide), fun m b hm hb => ?_⟩,
    hc, ⟨_, rfl⟩, by decide, by decide⟩
  · obtain rfl | rfl : k = 0 ∨ k = 1 := by omega
    all_goals decide
  · obtain rfl | rfl : m = 0 ∨ m = 1 := by omega
    · obtain rfl : b = 0x21#8 := Option.some.inj (hb.symm.trans (by decide))
      decide
    · obtain rfl : b = 0x43#8 := Option.some.inj (hb.symm.trans (by decide))
      decide

/-- EveryStepKeepsInv: from that state, a step that goes on. -/
theorem test_witness_EveryStepKeepsInv :
    BlockInv formatted ∧ ∃ t, step formatted = .next t :=
  ⟨test_witness_HexFormatWritesTheText.1, _, rfl⟩

/-- The same block with another result and status. -/
def stale (s : State) : State := { s with status := .illegalCommand, resultLen := 5, tpduLen := 3 }

theorem stale_peek (s : State) (a : Nat) : (stale s).peek a = s.peek a := rfl

theorem stale_operands (s : State) : (stale s).outCap = s.outCap ∧ (stale s).scLen = s.scLen ∧
    (stale s).daLen = s.daLen ∧ (stale s).textLen = s.textLen := ⟨rfl, rfl, rfl, rfl⟩

/-- PackingOutcomeIsAFunctionOfOperands: two states that agree on every operand and differ in the
result and status they hold, for each packing command. -/
theorem test_witness_PackingOutcomeIsAFunctionOfOperands :
    Packs .encodePdu ∧ Packs .packText ∧ Packs (.packPhone .da) ∧
    (stale (plain 17#9)).outCap = (plain 17#9).outCap ∧
    ((stale (plain 17#9)).scLen = (plain 17#9).scLen ∧
      ∀ k, k < (plain 17#9).scLen.toNat → ((plain 17#9).peek (0x0100 + k)).isSome = true ∧
        (stale (plain 17#9)).peek (0x0100 + k) = (plain 17#9).peek (0x0100 + k)) ∧
    ((stale (plain 17#9)).daLen = (plain 17#9).daLen ∧
      ∀ k, k < (plain 17#9).daLen.toNat → ((plain 17#9).peek (0x0200 + k)).isSome = true ∧
        (stale (plain 17#9)).peek (0x0200 + k) = (plain 17#9).peek (0x0200 + k)) ∧
    ((stale (plain 17#9)).textLen = (plain 17#9).textLen ∧
      ∀ k, k < (plain 17#9).textLen.toNat → ((plain 17#9).peek (0x0300 + k)).isSome = true ∧
        (stale (plain 17#9)).peek (0x0300 + k) = (plain 17#9).peek (0x0300 + k)) := by
  obtain ⟨ho, hs, hd, ht⟩ := stale_operands (plain 17#9)
  refine ⟨trivial, trivial, trivial, ho, ⟨hs, fun k hk => ⟨?_, stale_peek _ _⟩⟩,
    ⟨hd, fun k hk => ⟨?_, stale_peek _ _⟩⟩, ⟨ht, fun k hk => ⟨?_, stale_peek _ _⟩⟩⟩
  · have h4 : (plain 17#9).scLen.toNat = 4 := by decide
    obtain rfl | rfl | rfl | rfl : k = 0 ∨ k = 1 ∨ k = 2 ∨ k = 3 := by omega
    all_goals decide
  · have h4 : (plain 17#9).daLen.toNat = 4 := by decide
    obtain rfl | rfl | rfl | rfl : k = 0 ∨ k = 1 ∨ k = 2 ∨ k = 3 := by omega
    all_goals decide
  · have h3 : (plain 17#9).textLen.toNat = 3 := by decide
    obtain rfl | rfl | rfl : k = 0 ∨ k = 1 ∨ k = 2 := by omega
    all_goals decide

theorem test_witness_CmdLineRunsItsCommand :
    (facing State.reset (.write 0x0600#16 0x09#8)).port =
      (HostLine.cmd (.packPhone .da)).events ++ [] := by decide

/-- LoadLinesExpand: a string of 256 characters and one of 255. -/
theorem test_witness_LoadLinesExpand :
    255 < (List.replicate 256 0x31#8).length ∧ (List.replicate 255 0x31#8).length ≤ 255 :=
  ⟨by rw [List.length_replicate]; decide, by rw [List.length_replicate]⟩

end Sys2Proof.Tests
end

/-! SUPPORT. The registers and what changes them (10_state.md): what a CMD write runs, what every
other host write can do, and the statements about the inputs, HEX_COUNT, reset and CONFIG. -/

namespace Sys2Proof.Machine

/-! ### Host writes -/

theorem command_ok (s : State) (run : Instr → State → Host.Outcome State Fault Refusal)
    (v : Byte) (i : Instr) (h : decode v = .ok i) : s.command run v = run i s := by
  simp [State.command, h]

theorem command_error (s : State) (run : Instr → State → Host.Outcome State Fault Refusal)
    (v : Byte) (e : DecodeError) (h : decode v = .error e) :
    s.command run v = .next s.illegalCommand := by
  simp [State.command, h]

/-- A host write to CMD is the command of its byte, once the access has left the port (R16). -/
theorem step_cmdWrite (s : State) (v : Byte) (rest : List PortEvent)
    (h : s.port = .write 0x0600#16 v :: rest) :
    step s = State.command { s with port := rest } exec v :=
  (step_write s _ v rest h).trans (hostWrite_register _ exec .cmd v)

/-- What a host write to any address but CMD's can do: nothing, store an input byte, or store into a
register. -/
theorem hostWrite_other_cases (s : State)
    (run : Instr → State → Host.Outcome State Fault Refusal) (a : Addr) (v : Byte)
    (ha : a ≠ Reg.cmd.addr) :
    s.hostWrite run a v = .next s ∨
      (0x0100 ≤ a.toNat ∧ a.toNat < 0x0400 ∧
        s.hostWrite run a v = .next (s.writeByte a.toNat v)) ∨
      ∃ r : Reg, r ≠ .cmd ∧ a = r.addr ∧ s.hostWrite run a v = .next (s.writeReg v r) := by
  by_cases hin : 0x0100 ≤ a.toNat ∧ a.toNat < 0x0400
  · exact .inr (.inl ⟨hin.1, hin.2, hostWrite_input s run a v hin.1 hin.2⟩)
  by_cases hbuf : a.toNat < 0x0600
  · exact .inl (hostWrite_readOnlyBuffer s run a v (by omega))
  by_cases hres : 0x060E ≤ a.toNat
  · exact .inl (hostWrite_reserved s run a v hres)
  obtain ⟨r, rfl⟩ := exists_register a (by omega) (by omega)
  have hr : r ≠ .cmd := fun h => ha (by rw [h])
  exact .inr (.inr ⟨r, hr, rfl, by rw [hostWrite_register, if_neg hr]⟩)

@[simp] theorem writeReg_hexCount (s : State) (v : Byte) (r : Reg) :
    (s.writeReg v r).hexCount = s.hexCount := by
  cases r <;> rfl

theorem hostWrite_other_hexCount (s t : State)
    (run : Instr → State → Host.Outcome State Fault Refusal) (a : Addr) (v : Byte)
    (ha : a ≠ Reg.cmd.addr) (h : s.hostWrite run a v = .next t) : t.hexCount = s.hexCount := by
  rcases hostWrite_other_cases s run a v ha with hw | ⟨-, -, hw⟩ | ⟨r, -, -, hw⟩ <;>
    rw [hw] at h <;> cases h
  · rfl
  · exact writeByte_hexCount s _ v
  · exact writeReg_hexCount s v r

/-! ### CONFIG -/

theorem memRead_config (s : State) (dc : DigitCheck) :
    s.memRead dc 0x060B#16 = (configByte dc, s) :=
  memRead_register s dc .config

/-! ### The inputs under a command -/

/-- What R28 says the engine leaves: the registers the host writes, and SC_IN, DA_IN and TEXT_IN. -/
structure SameInputs (s t : State) : Prop where
  regs : SameInputRegs s t
  bytes : ∀ x, 0x0100 ≤ x → x < 0x0400 → t.peek x = s.peek x

/-- A packing command touches OUT only, which ends where SC_IN begins. -/
theorem Ends.sameInputs {s t : State} (h : Ends s t) : SameInputs s t := by
  obtain ⟨regs, -, outside⟩ := h.frame
  have := effCap_le s
  exact ⟨regs, fun x hx _ => outside x (by omega)⟩

/-- HEX_FORMAT touches HEX only, which begins where TEXT_IN ends. -/
theorem hexFormat_sameInputs (s : State) : SameInputs s (hexFormatEffect s) := by
  have h := hexFormat_touched s
  exact ⟨⟨h.scLen, h.daLen, h.textLen, h.outCap⟩, fun x _ hx => h.outside x (.inl hx)⟩

theorem exec_sameInputs (i : Instr) (s t : State) (h : exec i s = .next t) : SameInputs s t := by
  rcases exec_cases i s with ⟨-, u, hu, he⟩ | ⟨-, hx⟩
  · rw [hu] at h
    cases h
    exact he.sameInputs
  · rw [hx] at h
    cases h
    exact hexFormat_sameInputs s

theorem command_sameInputs (s t : State) (v : Byte) (h : s.command exec v = .next t) :
    SameInputs s t := by
  cases hd : decode v with
  | ok i => exact exec_sameInputs i s t (command_ok s exec v i hd ▸ h)
  | error e =>
    rw [command_error s exec v e hd] at h
    cases h
    exact ⟨⟨rfl, rfl, rfl, rfl⟩, fun _ _ _ => rfl⟩

/-- The events still to come are no input of a command. -/
theorem SameInputs.of_setPort {s t : State} {rest : List PortEvent}
    (h : SameInputs { s with port := rest } t) : SameInputs s t :=
  ⟨⟨h.regs.scLen, h.regs.daLen, h.regs.textLen, h.regs.outCap⟩, h.bytes⟩

/-- Settles O23: a packing command touches OUT only, HEX_FORMAT touches HEX only, an illegal byte
touches STATUS only, and CONFIG reads the build parameter in every state. -/
theorem engineNeverWritesInputs : Obligations.EngineNeverWritesInputs := by
  refine ⟨fun i s t h => ?_, fun s t v rest hp h => ?_⟩
  · obtain ⟨regs, bytes⟩ := exec_sameInputs i s t h
    exact ⟨regs, bytes, fun dc => by rw [memRead_config, memRead_config]⟩
  · rw [step_cmdWrite s v rest hp] at h
    obtain ⟨regs, bytes⟩ := (command_sameInputs _ t v h).of_setPort
    exact ⟨regs, bytes⟩

/-! ### HEX_COUNT -/

/-- Both exits set HEX_COUNT to 0 (R94, R95). -/
theorem Ends.hexCount {s t : State} (h : Ends s t) : t.hexCount = 0 := by
  cases h with
  | finished u len tpdu => exact finish_hexCount u len tpdu
  | failed u e => exact raise_hexCount u e

/-- Settles O24, by the exits of the packing commands, HEX_FORMAT's own count, and the cases of a
host write. -/
theorem hexCountFollowsTheCommands : Obligations.HexCountFollowsTheCommands := by
  refine ⟨fun i s t hp h => ?_, fun s t h => ?_, fun s t v e rest hd hp h => ?_,
    fun s t a v rest ha hp h => ?_, fun s => Nat.le_of_lt_succ s.hexCount.isLt⟩
  · rw [(packs_ends i s t hp h).hexCount]
    rfl
  · cases h
    exact hexFormat_hexCount s
  · rw [step_cmdWrite s v rest hp, command_error _ exec v e hd] at h
    cases h
    exact illegalCommand_hexCount _
  · rw [step_write s a v rest hp] at h
    exact (hostWrite_other_hexCount _ t exec a v ha h :)

/-! ### Reset and CONFIG -/

/-- Settles O14: every register of `State.reset` is a literal of R29; CONFIG is the STRICT build's
byte. -/
theorem resetGivesEveryRegisterItsValue : Obligations.ResetGivesEveryRegisterItsValue := by
  refine ⟨rfl, rfl, rfl, rfl, rfl, rfl, rfl, rfl, ?_⟩
  rw [memRead_config]
  rfl

/-- Settles O16, by the register read and the register write at CONFIG's address. -/
theorem configReadsTheBuildParameter : Obligations.ConfigReadsTheBuildParameter := by
  refine ⟨fun s => memRead_config s .strict, fun s => memRead_config s .passthrough,
    fun s rest h => ?_, fun s v rest h => ?_⟩
  · rw [step_read s _ rest h]
    exact congrArg Host.Outcome.next (hostRead_register _ Config.digitCheck .config)
  · rw [step_write s _ v rest h]
    exact hostWrite_register _ exec .config v

end Sys2Proof.Machine

/-! SUPPORT. The host map's plain accesses (20_memory.md): host reads that repeat (R39), and host
writes and reads that are ignored or answer zero (R41). -/

namespace Sys2Proof.Machine

/-! ### Reads that repeat -/

/-- No register holds anything of the port's side or of the draws. -/
theorem readReg_of_portSide (s : State) (dc : DigitCheck) (r : Reg) (port : List PortEvent)
    (obs : List Byte) (d : Nat) :
    State.readReg { s with port := port, observed := obs, draws := d } dc r = s.readReg dc r := by
  cases r <;> rfl

/-- A register, a reserved address and a written byte each have one byte that every read of them
observes, whatever was read before, is still to come, or was drawn. -/
theorem hostRead_determined (s : State) (dc : DigitCheck) (a : Addr)
    (h : 0x0600 ≤ a.toNat ∨ (s.peek a.toNat).isSome = true) :
    ∃ v, ∀ (port : List PortEvent) (obs : List Byte) (d : Nat),
      State.hostRead { s with port := port, observed := obs, draws := d } dc a =
        { s with port := port, observed := obs ++ [v], draws := d } := by
  by_cases hres : 0x060E ≤ a.toNat
  · exact ⟨0x00#8, fun _ _ _ => hostRead_reserved _ dc a hres⟩
  by_cases hreg : 0x0600 ≤ a.toNat
  · obtain ⟨r, rfl⟩ := exists_register a hreg (by omega)
    exact ⟨s.readReg dc r, fun _ _ _ => by rw [hostRead_register, readReg_of_portSide]⟩
  · obtain ⟨v, hv⟩ := Option.isSome_iff_exists.mp (h.resolve_left hreg)
    exact ⟨v, fun _ _ _ => hostRead_written _ dc a v (by omega) hv⟩

/-- Settles O7: a determined read observes its one byte; a read of an unwritten byte is the next
draw. -/
theorem hostReadsAreIdempotent : Obligations.HostReadsAreIdempotent := by
  refine fun s a => ⟨fun h => ?_, fun ⟨hbuf, hnone⟩ obs rest d => ?_⟩
  · obtain ⟨v, hv⟩ := hostRead_determined s Config.digitCheck a h
    refine ⟨v, fun obs rest d => ?_⟩
    rw [step_read _ a rest rfl]
    exact congrArg Host.Outcome.next (hv rest obs d)
  · rw [step_read _ a rest rfl]
    exact congrArg Host.Outcome.next (hostRead_unwritten _ Config.digitCheck a hbuf hnone)

/-! ### Ignored writes and zero reads -/

/-- The registers at 0x0601 to 0x0607 and 0x060B (STATUS, the result registers, CONFIG) run no
command and store nothing. -/
theorem writeReg_readOnly (s : State) (v : Byte) (r : Reg)
    (h : (0x0601 ≤ r.addr.toNat ∧ r.addr.toNat ≤ 0x0607) ∨ r.addr.toNat = 0x060B) :
    r ≠ .cmd ∧ s.writeReg v r = s := by
  cases r
  case cmd | scLen | daLen | textLen | outCapLo | outCapHi => simp [Reg.addr] at h
  all_goals exact ⟨by decide, rfl⟩

theorem hostWrite_readOnlyRegister (s : State)
    (run : Instr → State → Host.Outcome State Fault Refusal) (a : Addr) (v : Byte)
    (h : (0x0601 ≤ a.toNat ∧ a.toNat ≤ 0x0607) ∨ a.toNat = 0x060B) :
    s.hostWrite run a v = .next s := by
  obtain ⟨r, rfl⟩ := exists_register a (by omega) (by omega)
  obtain ⟨hcmd, hstore⟩ := writeReg_readOnly s v r h
  rw [hostWrite_register, if_neg hcmd, hstore]

/-- Settles O11, by the kinds of address: OUT and HEX, the read-only registers, the reserved range;
and CMD and the reserved range for reads. -/
theorem ignoredWritesChangeNothing : Obligations.IgnoredWritesChangeNothing := by
  refine ⟨fun s a v rest hp h => ?_, fun s a rest hp h => ?_⟩
  · rw [step_write s a v rest hp]
    rcases h with hout | hhex | hreg | hconfig | hres
    · exact hostWrite_readOnlyBuffer _ exec a v (.inl hout)
    · exact hostWrite_readOnlyBuffer _ exec a v (.inr hhex)
    · exact hostWrite_readOnlyRegister _ exec a v (.inl hreg)
    · exact hostWrite_readOnlyRegister _ exec a v (.inr hconfig)
    · exact hostWrite_reserved _ exec a v hres
  · rw [step_read s a rest hp]
    rcases h with hcmd | hres
    · obtain rfl : a = Reg.cmd.addr := BitVec.eq_of_toNat_eq hcmd
      exact congrArg Host.Outcome.next (hostRead_register _ Config.digitCheck .cmd)
    · exact congrArg Host.Outcome.next (hostRead_reserved _ Config.digitCheck a hres)

end Sys2Proof.Machine

/-! SUPPORT. The command bytes (30_encoding.md): the fields of a byte as arithmetic, the decoder as
the inverse of the encoder, and the statements about the legal and the illegal bytes. -/

namespace Sys2Proof

/-! ### The fields of a command byte (R50) -/

theorem fieldZ_eq_iff (b : Byte) (z : BitVec 4) : fieldZ b = z ↔ b.toNat / 16 = z.toNat := by
  have : b.toNat / 16 < 16 := by omega
  simp [fieldZ, ← BitVec.toNat_inj, Nat.shiftRight_eq_div_pow, Nat.mod_eq_of_lt this]

theorem fieldS_eq_iff (b : Byte) (v : BitVec 1) : fieldS b = v ↔ b.toNat / 8 % 2 = v.toNat := by
  simp [fieldS, ← BitVec.toNat_inj, Nat.shiftRight_eq_div_pow]

theorem fieldOp_eq_iff (b : Byte) (op : BitVec 3) : fieldOp b = op ↔ b.toNat % 8 = op.toNat := by
  simp [fieldOp, ← BitVec.toNat_inj]

/-! ### The legal bytes (R54) -/

theorem decode_encode (i : Instr) : decode (encode i) = .ok i := by
  rcases i with (_ | _) | _ | _ | _ <;> rfl

/-- The three fields are the whole byte, so those a command was decoded from give its byte back. -/
theorem encode_of_decode (b : Byte) (i : Instr) (h : decode b = .ok i) : encode i = b := by
  apply BitVec.eq_of_toNat_eq
  simp only [decode, ne_eq, fieldZ_eq_iff, fieldS_eq_iff, fieldOp_eq_iff, BitVec.toNat_ofNat] at h
  split_ifs at h <;> cases h
  all_goals
    simp only [encode, BitVec.toNat_ofNat]
    omega

theorem decode_eq_ok_iff (b : Byte) (i : Instr) : decode b = .ok i ↔ b = encode i :=
  ⟨fun h => (encode_of_decode b i h).symm, fun h => h ▸ decode_encode i⟩

theorem exists_decode_ok_iff (b : Byte) :
    (∃ i, decode b = .ok i) ↔
      b = 0x01#8 ∨ b = 0x09#8 ∨ b = 0x02#8 ∨ b = 0x03#8 ∨ b = 0x04#8 := by
  simp only [decode_eq_ok_iff]
  constructor
  · rintro ⟨(_ | _) | _ | _ | _, rfl⟩ <;> simp [encode]
  · rintro (h | h | h | h | h)
    exacts [⟨.packPhone .sc, h⟩, ⟨.packPhone .da, h⟩, ⟨.packText, h⟩, ⟨.encodePdu, h⟩,
      ⟨.hexFormat, h⟩]

theorem exists_decode_packPhone_iff (b : Byte) :
    (∃ src, decode b = .ok (.packPhone src)) ↔ b = 0x01#8 ∨ b = 0x09#8 := by
  simp only [decode_eq_ok_iff]
  constructor
  · rintro ⟨_ | _, rfl⟩ <;> simp [encode]
  · rintro (h | h)
    exacts [⟨.sc, h⟩, ⟨.da, h⟩]

/-- The mask drops bit 3, the one bit in which the two bytes of PACK_PHONE differ. -/
theorem and_phoneMask_eq_iff (b : Byte) : b &&& 0xF7#8 = 0x01#8 ↔ b = 0x01#8 ∨ b = 0x09#8 := by
  revert b
  decide

/-- Settles O1: a byte decodes to a command exactly when it is that command's encoding. -/
theorem legalCommandBytesAreTheFive : Obligations.LegalCommandBytesAreTheFive :=
  ⟨decode_encode (.packPhone .sc), decode_encode (.packPhone .da), decode_encode .packText,
    decode_encode .encodePdu, decode_encode .hexFormat, fun b => (exists_decode_ok_iff b).mp,
    fun b => (exists_decode_packPhone_iff b).trans (and_phoneMask_eq_iff b).symm,
    fun b => decode_eq_ok_iff b .packText, fun b => decode_eq_ok_iff b .encodePdu,
    fun b => decode_eq_ok_iff b .hexFormat⟩

/-! ### The illegal bytes (R55) -/

theorem exists_decode_error_iff (b : Byte) :
    (∃ e, decode b = .error e) ↔ ¬ ∃ i, decode b = .ok i := by
  cases decode b <;> simp

theorem exists_decode_error_iff_fields (b : Byte) :
    (∃ e, decode b = .error e) ↔
      (b.toNat / 16 ≠ 0 ∨ b.toNat % 8 = 0 ∨ b.toNat % 8 = 5 ∨ b.toNat % 8 = 6 ∨ b.toNat % 8 = 7 ∨
        (b.toNat / 8 % 2 = 1 ∧ b.toNat % 8 ≠ 1)) := by
  rw [exists_decode_error_iff, exists_decode_ok_iff]
  simp only [← BitVec.toNat_inj, BitVec.toNat_ofNat]
  omega

theorem decodeTableWord_isNone_iff (nbits n : Nat) (hn : n < 256) :
    (decodeTableWord nbits n).isNone = true ↔ n ∉ ({1, 9, 2, 3, 4} : Finset Nat) := by
  have hdecode : (decodeTableWord nbits n).isNone = true ↔
      ∃ e, decode (BitVec.ofNat 8 n) = .error e := by
    rw [decodeTableWord, if_pos hn]
    cases decode (BitVec.ofNat 8 n) <;> simp
  rw [hdecode, exists_decode_error_iff, exists_decode_ok_iff]
  simp [← BitVec.toNat_inj, Nat.mod_eq_of_lt hn]

/-- The 256 byte values less the five legal ones. -/
theorem illegalBytes_length :
    ((List.range 256).filter fun n => (decodeTableWord 8 n).isNone).length = 251 := by
  have hlegal : ({1, 9, 2, 3, 4} : Finset Nat) ⊆ Finset.range 256 := by
    simp [Finset.insert_subset_iff]
  calc ((List.range 256).filter fun n => (decodeTableWord 8 n).isNone).length
      = ((Finset.range 256).filter fun n => (decodeTableWord 8 n).isNone).card := by
        rw [← List.toFinset_card_of_nodup (List.nodup_range.filter _), List.toFinset_filter,
          List.toFinset_range]
    _ = (Finset.range 256 \ {1, 9, 2, 3, 4}).card := by
        rw [Finset.sdiff_eq_filter, Finset.filter_congr fun n hn =>
          decodeTableWord_isNone_iff 8 n (Finset.mem_range.mp hn)]
    _ = 256 - 5 := by
        rw [Finset.card_sdiff_of_subset hlegal, Finset.card_range]
        rfl

/-- Settles O3: the three ways to be illegal are all that the five legal bytes avoid, the count is
their complement's, and a CMD write of an illegal byte is the response of R97. -/
theorem illegalBytesByField : Obligations.IllegalBytesByField := by
  refine ⟨exists_decode_error_iff_fields, illegalBytes_length, fun s v e rest hdecode hport => ?_⟩
  rw [Machine.step_cmdWrite s v rest hport]
  exact Machine.command_error _ Machine.exec v e hdecode

end Sys2Proof

/-! SUPPORT. The phone number packer (41_phone_number_packer.md): what PackDigits writes (R62, R64),
the three ways PACK_PHONE ends (R65), which command rejects an empty string (R67), and the
statements about them. -/

namespace Sys2Proof.Machine

/-! ### PackDigits -/

/-- A position reached by PackDigits is past the semi-octets of the characters it read. -/
theorem packDigits_reached {dc : DigitCheck} {src n p q : Nat} {s t : State}
    (h : packDigits dc src n p s = .reached q t) :
    q = p + ceilDiv n 2 ∧
      t = (s.readBytes src n).2.putBytes p (semiOctets (s.readBytes src n).1) := by
  rcases packDigits_cases dc src n p s with ⟨-, -, hr⟩ | ⟨-, hr⟩
  · rw [hr] at h
    cases h
  · rw [hr] at h
    cases h
    exact ⟨rfl, rfl⟩

theorem packDigits_nonDigit (src n p : Nat) (s : State)
    (h : HasNonDigit (s.readBytes src n).1) :
    packDigits .strict src n p s = .raised .invalidDigit (s.readBytes src n).2 := by
  rcases packDigits_cases .strict src n p s with ⟨-, -, hr⟩ | ⟨hdigits, -⟩
  · exact hr
  · exact absurd h ((all_isDigit_iff_not_hasNonDigit _).mp (hdigits rfl))

/-- Without a check, or with digits only, PackDigits writes the semi-octets. -/
theorem packDigits_packs (dc : DigitCheck) (src n p : Nat) (s : State)
    (h : dc = .strict → ¬ HasNonDigit (s.readBytes src n).1) :
    packDigits dc src n p s = .reached (p + ceilDiv n 2)
      ((s.readBytes src n).2.putBytes p (semiOctets (s.readBytes src n).1)) := by
  rcases packDigits_cases dc src n p s with ⟨hstrict, hbad, -⟩ | ⟨-, hr⟩
  · exact absurd ((all_isDigit_false_iff _).mp hbad) (h hstrict)
  · exact hr

theorem length_semiOctets_readBytes (s : State) (src n : Nat) :
    (semiOctets (s.readBytes src n).1).length = ceilDiv n 2 := by
  rw [length_semiOctets, readBytes_length]

/-- Reading a digit string and writing its semi-octets lays down those and nothing else. -/
theorem lays_semiOctets (s : State) (src n p : Nat) :
    Lays p s (semiOctets (s.readBytes src n).1)
      ((s.readBytes src n).2.putBytes p (semiOctets (s.readBytes src n).1)) :=
  ⟨(touched_readBytes s src n _ _).trans (touched_putBytes _ p _),
    fun k b hk => putBytes_peek_some _ p k _ b hk⟩

theorem Lays.sameBytesOutside {p : Nat} {s t : State} {os : List (Option Byte)}
    (h : Lays p s os t) : SameBytesOutside s t p os.length := h.touched.outside

theorem writtenRange_putBytes (s : State) (a : Nat) (os : List (Option Byte)) :
    WrittenRange (s.putBytes a os) a os.length :=
  fun k hk => putBytes_peek_isSome s a k os hk

/-- Settles O29: what PackDigits writes is the list of semi-octets, whose length is
`ceil_div(n, 2)`. -/
theorem packDigitsWritesItsLength : Obligations.PackDigitsWritesItsLength := by
  refine ⟨fun dc src n p q s t h => ?_, rfl, rfl, fun n hn => ?_⟩
  · obtain ⟨rfl, rfl⟩ := packDigits_reached h
    rw [← length_semiOctets_readBytes s src n]
    exact ⟨rfl, writtenRange_putBytes _ p _, (lays_semiOctets s src n p).sameBytesOutside⟩
  · unfold ceilDiv
    omega

/-! ### How PACK_PHONE ends -/

theorem packPhoneWith_exceeds (dc : DigitCheck) (src : PhoneSource) (s : State)
    (h : s.effCap < ceilDiv (s.phoneLen src) 2) :
    packPhoneWith dc src s = s.raise .bufferTooSmall := by
  rw [packPhoneWith, ifFits_exceeds _ _ _ _ (by omega), close_raised]

theorem packPhoneWith_fits (dc : DigitCheck) (src : PhoneSource) (s : State)
    (h : ceilDiv (s.phoneLen src) 2 ≤ s.effCap) :
    packPhoneWith dc src s =
      (packDigits dc (phoneBuffer src).base (s.phoneLen src) 0 s).close
        (fun p s' => s'.finish p 0) := by
  rw [packPhoneWith, ifFits_fits _ _ _ _ (by omega)]

theorem packPhoneWith_nonDigit (src : PhoneSource) (s : State)
    (hfit : ceilDiv (s.phoneLen src) 2 ≤ s.effCap) (hbad : HasNonDigit (s.phoneBytes src)) :
    packPhoneWith .strict src s =
      (s.readBytes (phoneBuffer src).base (s.phoneLen src)).2.raise .invalidDigit := by
  rw [packPhoneWith_fits _ src s hfit, packDigits_nonDigit _ _ _ s hbad, close_raised]

/-- The success of PACK_PHONE, in either build: the semi-octets of the characters read, laid down
at OUT[0], then the success exit. -/
theorem packPhoneWith_packs (dc : DigitCheck) (src : PhoneSource) (s : State)
    (hfit : ceilDiv (s.phoneLen src) 2 ≤ s.effCap)
    (hdigits : dc = .strict → ¬ HasNonDigit (s.phoneBytes src)) :
    ∃ u, packPhoneWith dc src s = u.finish (ceilDiv (s.phoneLen src) 2) 0 ∧
      Lays 0 s (semiOctets (s.phoneBytes src)) u := by
  refine ⟨_, ?_, lays_semiOctets s _ _ 0⟩
  rw [packPhoneWith_fits dc src s hfit, packDigits_packs dc _ _ 0 s hdigits, close_reached,
    Nat.zero_add]

theorem length_phoneBytes (s : State) (src : PhoneSource) :
    (s.phoneBytes src).length = s.phoneLen src := readBytes_length s _ _

theorem length_semiOctets_phoneBytes (s : State) (src : PhoneSource) :
    (semiOctets (s.phoneBytes src)).length = ceilDiv (s.phoneLen src) 2 :=
  length_semiOctets_readBytes s _ _

theorem finishedWith_of_fits (s u : State) (len : Nat) (h : len ≤ s.effCap) :
    FinishedWith (u.finish len 0) len 0 :=
  finish_finishedWith u len 0 (h.trans (effCap_le s)) (by omega)

/-- Settles O26: the capacity check, then the digit check, then the entries of the semi-octets of a
digit string; PASSTHROUGH has no digit check. -/
theorem packPhonePacksDigits : Obligations.PackPhonePacksDigits := by
  refine ⟨fun src s => ⟨fun hsmall => ?_, fun hfit hbad => ?_, fun hfit hdigits => ?_⟩,
    fun src s => ⟨fun hsmall => ?_, fun hfit => ?_⟩⟩
  · exact ⟨_, rfl, packPhoneWith_exceeds .strict src s hsmall ▸ raise_failedWith _ _⟩
  · exact ⟨_, rfl, packPhoneWith_nonDigit src s hfit hbad ▸ raise_failedWith _ _⟩
  · obtain ⟨u, hu, hlays⟩ := packPhoneWith_packs .strict src s hfit fun _ => hdigits
    refine ⟨_, congrArg Host.Outcome.next hu, finishedWith_of_fits s u _ hfit, fun m hm => ?_, ?_⟩
    · have hentry := semiOctets_entry (s.phoneBytes src) m (by rwa [length_phoneBytes])
        ((all_isDigit_iff_not_hasNonDigit _).mpr hdigits)
      rw [length_phoneBytes] at hentry
      rw [finish_peek, ← Nat.zero_add m, hlays.value m _ hentry, Nat.zero_add]
    · rw [← length_semiOctets_phoneBytes]
      exact hlays.sameBytesOutside
  · exact ⟨_, rfl, packPhoneWith_exceeds .passthrough src s hsmall ▸ raise_failedWith _ _⟩
  · obtain ⟨u, hu, -⟩ := packPhoneWith_packs .passthrough src s hfit nofun
    exact ⟨_, congrArg Host.Outcome.next hu, finishedWith_of_fits s u _ hfit⟩

/-! ### The empty string -/

theorem packPhoneWith_status (dc : DigitCheck) (src : PhoneSource) (s : State) :
    (packPhoneWith dc src s).status = .ok ∨ (packPhoneWith dc src s).status = .bufferTooSmall ∨
      (packPhoneWith dc src s).status = .invalidDigit := by
  by_cases hfit : ceilDiv (s.phoneLen src) 2 ≤ s.effCap
  · rw [packPhoneWith_fits dc src s hfit]
    rcases packDigits_cases dc (phoneBuffer src).base (s.phoneLen src) 0 s with
      ⟨-, -, hr⟩ | ⟨-, hr⟩
    · exact .inr (.inr (by rw [hr]; rfl))
    · exact .inl (by rw [hr]; rfl)
  · exact .inr (.inl (by rw [packPhoneWith_exceeds dc src s (by omega)]; rfl))

theorem packTextEffect_status (s : State) :
    (packTextEffect s).status = .ok ∨ (packTextEffect s).status = .bufferTooSmall := by
  unfold packTextEffect
  by_cases hfit : 0 + ceilDiv (7 * s.textLen.toNat) 8 ≤ s.effCap
  · exact .inl (by rw [ifFits_fits _ _ _ _ hfit, packSeptets_eq]; rfl)
  · exact .inr (by rw [ifFits_exceeds _ _ _ _ (by omega)]; rfl)

theorem encodePduWith_emptyDestination (dc : DigitCheck) (s : State) (h : s.daLen.toNat = 0) :
    encodePduWith dc s = s.raise .emptyDestination :=
  if_pos (BitVec.eq_of_toNat_eq h)

/-- Only ENCODE_PDU rejects an empty destination: every other command's statuses are others. -/
theorem eq_encodePdu_of_emptyDestination (i : Instr) (s t : State) (h : exec i s = .next t)
    (ht : t.status = .emptyDestination) : i = .encodePdu := by
  cases i <;> cases h
  case encodePdu => rfl
  case packPhone src =>
    rcases packPhoneWith_status Config.digitCheck src s with hs | hs | hs <;>
      exact absurd (hs.symm.trans ht) (by decide)
  case packText =>
    rcases packTextEffect_status s with hs | hs <;> exact absurd (hs.symm.trans ht) (by decide)
  case hexFormat => cases ht

/-- Of an empty string nothing is read and nothing is written (R67). -/
theorem packPhoneWith_empty (dc : DigitCheck) (src : PhoneSource) (s : State)
    (h : s.phoneLen src = 0) : packPhoneWith dc src s = s.finish 0 0 := by
  have hnone : packDigits dc (phoneBuffer src).base 0 0 s = .reached 0 s :=
    packDigits_packs dc _ 0 0 s fun _ ⟨_, hk, _⟩ => Nat.not_lt_zero _ hk
  rw [packPhoneWith_fits dc src s (by rw [h]; exact Nat.zero_le _), h, hnone, close_reached]

/-- Settles O30: PACK_PHONE reads and writes nothing for an empty string, no other command but
ENCODE_PDU has the status, and its first check gives it. -/
theorem packPhoneAcceptsTheEmptyString : Obligations.PackPhoneAcceptsTheEmptyString := by
  refine ⟨fun src s hempty => ?_, eq_encodePdu_of_emptyDestination, fun s hempty => ?_⟩
  · exact ⟨_, congrArg Host.Outcome.next (packPhoneWith_empty _ src s hempty),
      finish_finishedWith s 0 0 (by omega) (by omega), finish_mem s 0 0⟩
  · exact ⟨_, congrArg Host.Outcome.next (encodePduWith_emptyDestination _ s hempty),
      raise_failedWith s _⟩

end Sys2Proof.Machine

/-! SUPPORT. The seven-bit text packer (42_seven_bit_text_packer.md): what Pack7 writes (R69, R71),
the two ways PACK_TEXT ends (R72), and the statements about them. -/

namespace Sys2Proof.Machine

/-! ### Pack7 -/

theorem length_pack7_readBytes (s : State) (a n : Nat) :
    (pack7 (s.readBytes a n).1).length = ceilDiv (7 * n) 8 := by
  rw [length_pack7, readBytes_length]

/-- Reading a text and writing its septet stream lays down that stream and nothing else. -/
theorem lays_pack7 (s : State) (a n p : Nat) :
    Lays p s ((pack7 (s.readBytes a n).1).map some)
      ((s.readBytes a n).2.putBytes p ((pack7 (s.readBytes a n).1).map some)) where
  touched := (touched_readBytes s a n _ _).trans (touched_putBytes _ p _)
  value := (lays_putBytes _ p _).value

/-- Settles O35: Pack7 writes the list of septet bytes, whose length is `ceil_div(7n, 8)`. -/
theorem pack7WritesItsLength : Obligations.Pack7WritesItsLength := by
  refine ⟨fun n p s => ⟨_, packSeptets_eq n p s, ?_⟩, rfl, rfl, rfl, rfl, rfl, rfl⟩
  rw [← length_pack7_readBytes s Buffer.textIn.base n, ← List.length_map (f := some)]
  exact ⟨writtenRange_putBytes _ p _, (lays_pack7 s _ n p).sameBytesOutside⟩

/-! ### How PACK_TEXT ends -/

theorem packTextEffect_exceeds (s : State)
    (h : s.effCap < ceilDiv (7 * s.textLen.toNat) 8) :
    packTextEffect s = s.raise .bufferTooSmall := by
  rw [packTextEffect, ifFits_exceeds _ _ _ _ (by omega), close_raised]

/-- The success of PACK_TEXT: the septet stream of the characters read, laid down at OUT[0], then
the success exit. -/
theorem packTextEffect_fits (s : State) (h : ceilDiv (7 * s.textLen.toNat) 8 ≤ s.effCap) :
    ∃ u, packTextEffect s = u.finish (ceilDiv (7 * s.textLen.toNat) 8) 0 ∧
      Lays 0 s ((pack7 s.textBytes).map some) u := by
  refine ⟨_, ?_, lays_pack7 s Buffer.textIn.base s.textLen.toNat 0⟩
  rw [packTextEffect, ifFits_fits _ _ _ _ (by omega), packSeptets_eq, close_reached, Nat.zero_add]

theorem length_pack7_textBytes (s : State) :
    (pack7 s.textBytes).length = ceilDiv (7 * s.textLen.toNat) 8 :=
  length_pack7_readBytes s _ _

/-- A list of given bytes, laid down, is read back entry by entry. -/
theorem Lays.peek_getD {p : Nat} {s t : State} {bs : List Byte} (h : Lays p s (bs.map some) t)
    {k : Nat} (hk : k < bs.length) : t.peek (p + k) = some (bs.getD k 0#8) := by
  apply h.value k
  rw [List.getElem?_map, List.getElem?_eq_getElem hk, List.getD_eq_getElem _ _ hk, Option.map_some]

/-- Settles O33: the capacity check, then the septet stream laid down at OUT[0]. -/
theorem packTextPacksTheText : Obligations.PackTextPacksTheText := by
  refine fun s => ⟨fun hsmall => ?_, fun hfit => ?_⟩
  · exact ⟨_, rfl, packTextEffect_exceeds s hsmall ▸ raise_failedWith _ _⟩
  · obtain ⟨u, hu, hlays⟩ := packTextEffect_fits s hfit
    refine ⟨_, congrArg Host.Outcome.next hu, finishedWith_of_fits s u _ hfit, ?_⟩
    rw [← length_pack7_textBytes s]
    refine ⟨fun j hj => ?_, ?_⟩
    · rw [finish_peek, ← hlays.peek_getD hj, Nat.zero_add]
    · rw [← List.length_map (f := some)]
      exact hlays.sameBytesOutside

end Sys2Proof.Machine

/-! SUPPORT. The PDU assembler (43_pdu_assembler.md): what each field of ENCODE_PDU does (R76 to
R80), the layout its fields lay down together (R75), when it ends OK (R82), and the statements about
a successful ENCODE_PDU. -/

namespace Sys2Proof.Machine

/-! ### What a field does -/

/-- What a field at position `p` answers that checks the characters `cs` and writes the bytes `os`:
with digits only and capacity enough it lays `os` down, ends behind them and leaves `d` as the count
of draws; else it raises an error, which for digits only is BUFFER_TOO_SMALL. -/
inductive Assembles (p : Nat) (s : State) (cs : List Byte) (os : List (Option Byte)) (d : Nat) :
    Progress → Prop where
  | reached (t : State) (digits : cs.all isDigit = true) (fits : p + os.length ≤ s.effCap)
      (lays : Lays p s os t) (draws : t.draws = d) :
      Assembles p s cs os d (.reached (p + os.length) t)
  | raised (e : EncodeError) (t : State)
      (short : cs.all isDigit = true → e = .bufferTooSmall ∧ s.effCap < p + os.length) :
      Assembles p s cs os d (.raised e t)

/-- Two fields in a row check, and lay down, the one's after the other's. -/
theorem Assembles.andThen {p d d' : Nat} {s : State} {cs cs' : List Byte}
    {xs ys : List (Option Byte)} {r : Progress} {next : Nat → State → Progress}
    (h : Assembles p s cs xs d r)
    (hnext : ∀ t, p + xs.length ≤ s.effCap → Lays p s xs t → t.draws = d →
      Assembles (p + xs.length) t cs' ys d' (next (p + xs.length) t)) :
    Assembles p s (cs ++ cs') (xs ++ ys) d' (r.andThen next) := by
  have hlen : p + (xs ++ ys).length = p + xs.length + ys.length := by
    rw [List.length_append, Nat.add_assoc]
  cases h with
  | raised e t short =>
    refine .raised e t fun hdigits => ?_
    rw [List.all_append, Bool.and_eq_true] at hdigits
    obtain ⟨he, hshort⟩ := short hdigits.1
    exact ⟨he, by omega⟩
  | reached t digits fits lays draws =>
    have h' := hnext t fits lays draws
    rw [andThen_reached]
    generalize next (p + xs.length) t = r' at h'
    cases h' with
    | raised e u short =>
      refine .raised e u fun hdigits => ?_
      rw [List.all_append, Bool.and_eq_true] at hdigits
      rw [hlen, ← lays.touched.effCap]
      exact short hdigits.2
    | reached u digits' fits' lays' draws' =>
      rw [lays.touched.effCap] at fits'
      rw [← hlen]
      exact .reached u (by rw [List.all_append, digits, digits', Bool.and_self])
        (hlen ▸ fits') (lays.append lays') draws'

theorem putOctets_assembles (p : Nat) (s : State) (octets : List Byte) :
    Assembles p s [] (octets.map some) s.draws (s.putOctets p octets) := by
  have hlen : (octets.map some).length = octets.length := List.length_map _
  by_cases hfit : p + octets.length ≤ s.effCap
  · obtain ⟨t, ht, hlays, hdraws⟩ := putOctets_fits s p octets hfit
    rw [ht, ← hlen]
    exact .reached t rfl (by omega) hlays hdraws
  · rw [putOctets_exceeds s p octets (by omega)]
    exact .raised _ _ fun _ => ⟨rfl, by omega⟩

/-- Fields 4 and 5 of R75. -/
theorem messageField_assembles (p : Nat) (s : State) :
    Assembles p s [] [some 0x11#8, some 0x00#8] s.draws (messageField p s) :=
  putOctets_assembles p s [0x11#8, 0x00#8]

/-- Fields 9 to 11 of R75. -/
theorem parameterField_assembles (p : Nat) (s : State) :
    Assembles p s [] [some 0x00#8, some 0x00#8, some 0xB0#8] s.draws (parameterField p s) :=
  putOctets_assembles p s [0x00#8, 0x00#8, 0xB0#8]

/-- The bytes of a present address field (R76, R78). -/
def State.addressLayout (s : State) (src : PhoneSource) : List (Option Byte) :=
  [some (BitVec.ofNat 8 (s.phoneLen src)), some 0x91#8] ++ semiOctets (s.phoneBytes src)

theorem length_addressLayout (s : State) (src : PhoneSource) :
    (s.addressLayout src).length = 2 + ceilDiv (s.phoneLen src) 2 := by
  rw [State.addressLayout, List.length_append, length_semiOctets_phoneBytes]
  rfl

/-- The count of draws after one digit string has been read. -/
def State.phoneDraws (s : State) (src : PhoneSource) : Nat :=
  (s.readBytes (phoneBuffer src).base (s.phoneLen src)).2.draws

theorem addressField_assembles (src : PhoneSource) (p : Nat) (s : State) :
    Assembles p s (s.phoneBytes src) (s.addressLayout src) (s.phoneDraws src)
      (addressField .strict src p s) := by
  have hlen := length_addressLayout s src
  by_cases hfit : p + (2 + ceilDiv (s.phoneLen src) 2) ≤ s.effCap
  · cases hdigits : (s.phoneBytes src).all isDigit with
    | true =>
      obtain ⟨t, ht, hlays, hdraws⟩ := addressField_digits .strict src p s hfit hdigits
      rw [ht, Nat.add_assoc, ← hlen]
      exact .reached t hdigits (by omega) hlays hdraws
    | false =>
      obtain ⟨t, ht⟩ := addressField_nonDigit src p s hfit hdigits
      rw [ht]
      exact .raised _ _ fun h => absurd (hdigits.symm.trans h) (by decide)
  · rw [addressField_exceeds .strict src p s (by omega)]
    exact .raised _ _ fun _ => ⟨rfl, by omega⟩

/-- The bytes of fields 1 to 3 of R75. -/
def State.scLayout (s : State) : List (Option Byte) :=
  if s.scLen.toNat = 0 then [some 0x00#8] else s.addressLayout .sc

theorem scLayout_absent (s : State) (h : s.scLen.toNat = 0) : s.scLayout = [some 0x00#8] :=
  if_pos h

theorem scLayout_present (s : State) (h : s.scLen.toNat ≠ 0) :
    s.scLayout = s.addressLayout .sc := if_neg h

theorem length_scLayout (s : State) : s.scLayout.length = s.scFieldSize := by
  unfold State.scLayout State.scFieldSize
  split
  · rfl
  · exact length_addressLayout s .sc

theorem scField_assembles (p : Nat) (s : State) :
    Assembles p s s.pduSc s.scLayout s.afterSc.draws (scField .strict p s) := by
  by_cases h : s.scLen.toNat = 0
  · have hread : s.readBytes Buffer.scIn.base s.scLen.toNat = ([], s) := by rw [h, readBytes_zero]
    have hsc : s.pduSc = [] := congrArg Prod.fst hread
    have hafter : s.afterSc = s := congrArg Prod.snd hread
    rw [hsc, hafter, scLayout_absent s h, scField, if_pos (BitVec.eq_of_toNat_eq h)]
    exact putOctets_assembles p s [0x00#8]
  · rw [scLayout_present s h, scField, if_neg fun h0 => h (congrArg BitVec.toNat h0)]
    exact addressField_assembles .sc p s

/-- The bytes of fields 12 and 13 of R75. -/
def State.userDataLayout (s : State) : List (Option Byte) :=
  [some s.textLen] ++ (pack7 s.textBytes).map some

theorem length_userDataLayout (s : State) :
    s.userDataLayout.length = 1 + ceilDiv (7 * s.textLen.toNat) 8 := by
  rw [State.userDataLayout, List.length_append, List.length_map, length_pack7_textBytes]
  rfl

/-- The count of draws after a text has been read. -/
def State.textDraws (s : State) : Nat :=
  (s.readBytes Buffer.textIn.base s.textLen.toNat).2.draws

theorem userDataField_draws {p q : Nat} {s t : State}
    (hfit : p + (1 + ceilDiv (7 * s.textLen.toNat) 8) ≤ s.effCap)
    (h : userDataField p s = .reached q t) : t.draws = s.textDraws := by
  have hcap := effCap_le s
  rw [userDataField, ifFits_fits _ _ _ _ hfit, packSeptets_eq] at h
  cases h
  rw [putBytes_draws_values]
  exact (readBytes_after_out s _ p (p + 1) _ _ (touched_putBytes s p [some s.textLen]) rfl
    (show p + 1 ≤ 0x0300 by omega)).2

theorem userDataField_assembles (p : Nat) (s : State) :
    Assembles p s [] s.userDataLayout s.textDraws (userDataField p s) := by
  have hlen := length_userDataLayout s
  by_cases hfit : p + (1 + ceilDiv (7 * s.textLen.toNat) 8) ≤ s.effCap
  · obtain ⟨t, ht, hlays⟩ := userDataField_fits p s hfit
    have hdraws := userDataField_draws hfit ht
    rw [ht, Nat.add_assoc, ← hlen]
    exact .reached t rfl (by omega) hlays hdraws
  · rw [userDataField_exceeds p s (by omega)]
    exact .raised _ _ fun _ => ⟨rfl, by omega⟩

/-! ### The whole PDU -/

/-- The destination digits are read as if nothing had been laid down in OUT before. -/
theorem reads_da_after_out {s t : State} {os : List (Option Byte)} (h : Lays 0 s os t)
    (hfit : 0 + os.length ≤ s.effCap) (hdraws : t.draws = s.afterSc.draws) :
    t.phoneBytes .da = s.pduDa ∧ t.phoneDraws .da = s.afterDa.draws := by
  have hcap := effCap_le s
  have hread := readBytes_congr t s.afterSc Buffer.daIn.base s.daLen.toNat hdraws fun k _ => by
    rw [State.afterSc, readBytes_peek]
    exact h.touched.outside _ (.inr (by show 0 + os.length ≤ 0x0200 + k; omega))
  have ht : t.phoneLen .da = s.daLen.toNat := h.touched.phoneLen .da
  have hs : s.afterSc.phoneLen .da = s.daLen.toNat :=
    congrArg BitVec.toNat (readBytes_daLen s _ _)
  rw [State.pduDa, State.phoneBytes, State.phoneBytes, State.phoneDraws, ht, hs]
  exact hread

/-- The text is read as if nothing had been laid down in OUT before. -/
theorem reads_text_after_out {s t : State} {os : List (Option Byte)} (h : Lays 0 s os t)
    (hfit : 0 + os.length ≤ s.effCap) (hdraws : t.draws = s.afterDa.draws) :
    t.textBytes = s.pduText ∧ t.textDraws = s.afterDa.textDraws := by
  have hcap := effCap_le s
  have hread := readBytes_congr t s.afterDa Buffer.textIn.base s.textLen.toNat hdraws fun k _ => by
    rw [State.afterDa, readBytes_peek, State.afterSc, readBytes_peek]
    exact h.touched.outside _ (.inr (by show 0 + os.length ≤ 0x0300 + k; omega))
  have hs : s.afterDa.textLen = s.textLen := by
    rw [State.afterDa, readBytes_textLen, State.afterSc, readBytes_textLen]
  rw [State.pduText, State.textBytes, State.textBytes, State.textDraws, State.textDraws, hs,
    h.touched.textLen]
  exact hread

/-- The destination field behind bytes already laid down: fields 6 to 8 of R75. -/
theorem daField_assembles_after {p : Nat} {s t : State} {os : List (Option Byte)}
    (h : Lays 0 s os t) (hfit : 0 + os.length ≤ s.effCap) (hdraws : t.draws = s.afterSc.draws) :
    Assembles p t s.pduDa ([some s.daLen, some 0x91#8] ++ semiOctets s.pduDa) s.afterDa.draws
      (daField .strict p t) := by
  obtain ⟨hbytes, hdraws'⟩ := reads_da_after_out h hfit hdraws
  have hfield := addressField_assembles .da p t
  have hcount : BitVec.ofNat 8 (t.phoneLen .da) = s.daLen := by
    rw [h.touched.phoneLen]
    exact (BitVec.ofNat_toNat 8 s.daLen).trans (BitVec.setWidth_eq _)
  rwa [State.addressLayout, hcount, hbytes, hdraws'] at hfield

/-- The user data behind bytes already laid down: fields 12 and 13 of R75. -/
theorem userDataField_assembles_after {p : Nat} {s t : State} {os : List (Option Byte)}
    (h : Lays 0 s os t) (hfit : 0 + os.length ≤ s.effCap) (hdraws : t.draws = s.afterDa.draws) :
    Assembles p t [] ([some s.textLen] ++ (pack7 s.pduText).map some) s.afterDa.textDraws
      (userDataField p t) := by
  obtain ⟨hbytes, hdraws'⟩ := reads_text_after_out h hfit hdraws
  have hfield := userDataField_assembles p t
  rwa [State.userDataLayout, h.touched.textLen, hbytes, hdraws'] at hfield

/-- Steps 1 to 5 of R82 in a row. -/
def State.pduFields (s : State) : Progress :=
  ((((scField .strict 0 s).andThen messageField).andThen (daField .strict)).andThen
    parameterField).andThen userDataField

theorem pduLayout_eq (s : State) :
    s.pduLayout = (((s.scLayout ++ [some 0x11#8, some 0x00#8]) ++
      ([some s.daLen, some 0x91#8] ++ semiOctets s.pduDa)) ++
      [some 0x00#8, some 0x00#8, some 0xB0#8]) ++
      ([some s.textLen] ++ (pack7 s.pduText).map some) := by
  have hcount : BitVec.ofNat 8 (s.phoneLen .sc) = s.scLen :=
    (BitVec.ofNat_toNat 8 s.scLen).trans (BitVec.setWidth_eq _)
  rw [State.pduLayout, State.scLayout, State.addressLayout, hcount]
  simp only [List.append_assoc]
  rfl

/-- Steps 1 to 5 check both digit strings and lay down the layout of R75. -/
theorem pduFields_assembles (s : State) :
    Assembles 0 s (s.pduSc ++ s.pduDa) s.pduLayout s.afterDa.textDraws s.pduFields := by
  have hsc := scField_assembles 0 s
  have hmessage := hsc.andThen (next := messageField) fun t _ _ hdraws =>
    hdraws ▸ messageField_assembles _ t
  have hda := hmessage.andThen (next := daField .strict) fun t hfit hlays hdraws =>
    daField_assembles_after hlays hfit hdraws
  have hparameters := hda.andThen (next := parameterField) fun t _ _ hdraws =>
    hdraws ▸ parameterField_assembles _ t
  have hpdu := hparameters.andThen (next := userDataField) fun t hfit hlays hdraws =>
    userDataField_assembles_after hlays hfit hdraws
  rw [pduLayout_eq, State.pduFields]
  simpa only [List.append_nil] using hpdu

theorem length_pduLayout (s : State) : s.pduLayout.length = s.pduTotal := by
  have hda : (semiOctets s.pduDa).length = ceilDiv s.daLen.toNat 2 := by
    rw [State.pduDa, length_semiOctets_phoneBytes, State.phoneLen, State.afterSc, readBytes_daLen]
  have htext : (pack7 s.pduText).length = ceilDiv (7 * s.textLen.toNat) 8 := by
    rw [State.pduText, length_pack7_textBytes, State.afterDa, readBytes_textLen, State.afterSc,
      readBytes_textLen]
  simp only [pduLayout_eq, List.length_append, List.length_map, List.length_cons, List.length_nil,
    length_scLayout, hda, htext, State.pduTotal]
  omega

/-! ### How ENCODE_PDU ends -/

theorem encodePduWith_textTooLong (dc : DigitCheck) (s : State) (hda : s.daLen.toNat ≠ 0)
    (htext : 160 < s.textLen.toNat) : encodePduWith dc s = s.raise .textTooLong := by
  rw [encodePduWith, if_neg fun h => hda (congrArg BitVec.toNat h),
    if_pos (show s.textLen.toNat > Config.textMax from htext)]

/-- Behind the argument checks, ENCODE_PDU is its five steps and the success exit, with the TPDU
length of R85. -/
theorem encodePduWith_eq (s : State) (hda : s.daLen.toNat ≠ 0) (htext : s.textLen.toNat ≤ 160) :
    encodePduWith .strict s = s.pduFields.close fun p u => u.finish p (p - s.scFieldSize) := by
  have hsc := scField_assembles 0 s
  rw [encodePduWith, if_neg fun h => hda (congrArg BitVec.toNat h),
    if_neg (show ¬ s.textLen.toNat > Config.textMax from Nat.not_lt.mpr htext), State.pduFields]
  generalize scField .strict 0 s = r at hsc
  cases hsc with
  | raised e t short => rfl
  | reached t digits fits lays draws =>
    rw [length_scLayout, Nat.zero_add]
    rfl

/-- What R82 asks for an OK: valid arguments, digits only, and room for the PDU. -/
structure State.PduAccepted (s : State) : Prop where
  destination : s.daLen.toNat ≠ 0
  text : s.textLen.toNat ≤ 160
  scDigits : ¬ HasNonDigit s.pduSc
  daDigits : ¬ HasNonDigit s.pduDa
  fits : s.pduTotal ≤ s.effCap

theorem pduDigits_all_iff (s : State) :
    (s.pduSc ++ s.pduDa).all isDigit = true ↔ ¬ HasNonDigit s.pduSc ∧ ¬ HasNonDigit s.pduDa := by
  rw [List.all_append, Bool.and_eq_true, all_isDigit_iff_not_hasNonDigit,
    all_isDigit_iff_not_hasNonDigit]

theorem EncodeError.status_ne_ok (e : EncodeError) : e.status ≠ .ok := by
  cases e <;> decide

theorem encodePduWith_accepted (s : State) (h : s.PduAccepted) :
    ∃ u, encodePduWith .strict s = u.finish s.pduTotal (s.pduTotal - s.scFieldSize) ∧
      Lays 0 s s.pduLayout u := by
  have hpdu := pduFields_assembles s
  have hlen := length_pduLayout s
  have hfit := h.fits
  rw [encodePduWith_eq s h.destination h.text]
  generalize s.pduFields = r at hpdu
  cases hpdu with
  | raised e t short =>
    obtain ⟨-, hshort⟩ := short ((pduDigits_all_iff s).mpr ⟨h.scDigits, h.daDigits⟩)
    omega
  | reached t digits fits lays draws =>
    refine ⟨t, ?_, lays⟩
    rw [close_reached, hlen, Nat.zero_add]

/-- Everything ENCODE_PDU does not accept ends in an error. -/
theorem pduAccepted_of_ok (s : State) (h : (encodePduWith .strict s).status = .ok) :
    s.PduAccepted := by
  by_cases hda : s.daLen.toNat = 0
  · rw [encodePduWith_emptyDestination _ s hda] at h
    cases h
  by_cases htext : s.textLen.toNat ≤ 160
  · have hpdu := pduFields_assembles s
    have hlen := length_pduLayout s
    rw [encodePduWith_eq s hda htext] at h
    generalize s.pduFields = r at hpdu h
    cases hpdu with
    | raised e t short => exact absurd h e.status_ne_ok
    | reached t digits fits lays draws =>
      obtain ⟨hsc, hda'⟩ := (pduDigits_all_iff s).mp digits
      exact ⟨hda, htext, hsc, hda', by omega⟩
  · rw [encodePduWith_textTooLong _ s hda (by omega)] at h
    cases h

/-- What stands after an accepted ENCODE_PDU: the exit's registers, the layout in OUT, and every
byte behind it as it was. -/
structure HoldsPdu (s t : State) : Prop where
  registers : FinishedWith t s.pduTotal (s.pduTotal - s.scFieldSize)
  layout : ∀ j, j < s.pduTotal → t.peek j = s.pduLayout.getD j none
  outside : SameBytesOutside s t 0 s.pduTotal

theorem none_notMem_semiOctets (cs : List Byte) (h : ¬ HasNonDigit cs) : none ∉ semiOctets cs := by
  obtain ⟨bs, hbs⟩ := semiOctets_of_digits cs ((all_isDigit_iff_not_hasNonDigit cs).mpr h)
  simp [hbs]

/-- Digits only leave no byte of the layout to a draw. -/
theorem none_notMem_pduLayout (s : State) (hsc : ¬ HasNonDigit s.pduSc)
    (hda : ¬ HasNonDigit s.pduDa) : none ∉ s.pduLayout := by
  have hsc' := none_notMem_semiOctets _ hsc
  have hda' := none_notMem_semiOctets _ hda
  unfold State.pduLayout
  split <;> simp [hsc', hda']

/-- A list without draws, laid down, is read back entry by entry. -/
theorem Lays.peek_of_none_notMem {p : Nat} {s t : State} {os : List (Option Byte)}
    (h : Lays p s os t) (hvalues : none ∉ os) {k : Nat} (hk : k < os.length) :
    t.peek (p + k) = os.getD k none := by
  rw [List.getD_eq_getElem _ _ hk]
  cases hentry : os[k] with
  | none => exact absurd (hentry ▸ List.getElem_mem hk) hvalues
  | some b => exact h.value k b (by rw [List.getElem?_eq_getElem hk, hentry])

theorem exec_encodePdu_accepted (s : State) (h : s.PduAccepted) :
    ∃ t, exec .encodePdu s = .next t ∧ HoldsPdu s t := by
  obtain ⟨u, hu, hlays⟩ := encodePduWith_accepted s h
  have hlen := length_pduLayout s
  have hcap := effCap_le s
  have hfit := h.fits
  refine ⟨_, congrArg Host.Outcome.next hu, finish_finishedWith u _ _ (by omega) (by omega),
    fun j hj => ?_, ?_⟩
  · have hentry := hlays.peek_of_none_notMem (none_notMem_pduLayout s h.scDigits h.daDigits)
      (show j < s.pduLayout.length by omega)
    rwa [Nat.zero_add] at hentry
  · rw [← hlen]
    exact hlays.sameBytesOutside

theorem holdsPdu_of_ok (s t : State) (h : exec .encodePdu s = .next t) (ht : t.status = .ok) :
    HoldsPdu s t := by
  have haccepted : s.PduAccepted := by
    cases h
    exact pduAccepted_of_ok s ht
  obtain ⟨u, hu, hpdu⟩ := exec_encodePdu_accepted s haccepted
  rw [hu] at h
  cases h
  exact hpdu

/-! ### The statements -/

/-- Settles O38: the five steps lay down the layout when everything is accepted, and nothing else
ends OK. -/
theorem encodePduWritesTheLayout : Obligations.EncodePduWritesTheLayout := by
  refine ⟨fun s hda htext hscDigits hdaDigits hfit => ?_, fun s t h ht => ?_⟩
  · obtain ⟨t, ht, registers, layout, outside⟩ :=
      exec_encodePdu_accepted s ⟨hda, htext, hscDigits, hdaDigits, hfit⟩
    exact ⟨t, ht, registers, length_pduLayout s, layout, outside⟩
  · obtain ⟨registers, layout, -⟩ := holdsPdu_of_ok s t h ht
    exact ⟨registers.resultLen, registers.resultLen ▸ layout⟩

/-- Settles O42, by the registers of a finished PDU and the summands of its total. -/
theorem tpduLenExcludesTheServiceCenter : Obligations.TpduLenExcludesTheServiceCenter := by
  intro s t h ht
  obtain ⟨registers, -, -⟩ := holdsPdu_of_ok s t h ht
  rw [registers.tpduLen, registers.resultLen, State.pduTotal]
  omega

/-- Settles O43: the first two bytes of the layout, which is longer than that. -/
theorem serviceCenterFieldHead : Obligations.ServiceCenterFieldHead := by
  intro s t h ht
  obtain ⟨-, layout, -⟩ := holdsPdu_of_ok s t h ht
  have htotal : 8 ≤ s.pduTotal := by
    unfold State.pduTotal
    omega
  rw [layout 0 (by omega), layout 1 (by omega), State.pduLayout]
  refine ⟨fun habsent => ?_, fun hpresent => ?_⟩
  · rw [if_pos habsent]
    exact ⟨rfl, rfl⟩
  · rw [if_neg hpresent]
    exact ⟨rfl, rfl⟩

end Sys2Proof.Machine

/-! SUPPORT. The hex formatter (44_hex_formatter.md): the characters of the nibbles (R87), what
HEX_FORMAT leaves in HEX (R88, R89), why a second HEX_FORMAT changes nothing, and the statements
about them. -/

namespace Sys2Proof.Machine

/-! ### The hex digits -/

theorem toNat_ofNat_byte {n : Nat} (h : n < 256) : (BitVec.ofNat 8 n).toNat = n := by
  rw [BitVec.toNat_ofNat, Nat.mod_eq_of_lt h]

theorem hexChar_digit {v : Nat} (h : v ≤ 9) :
    hexChar (BitVec.ofNat 8 v) = BitVec.ofNat 8 (0x30 + v) := by
  have hv : (BitVec.ofNat 8 v).toNat = v := toNat_ofNat_byte (by omega)
  rw [hexChar, hv, if_pos h, BitVec.ofNat_add]

theorem hexChar_letter {v : Nat} (h : 10 ≤ v) (h' : v ≤ 15) :
    hexChar (BitVec.ofNat 8 v) = BitVec.ofNat 8 (0x41 + (v - 10)) := by
  have hv : (BitVec.ofNat 8 v).toNat = v := toNat_ofNat_byte (by omega)
  rw [hexChar, hv, if_neg (by omega), BitVec.ofNat_add,
    BitVec.ofNat_sub_ofNat_of_le _ _ (by omega) h]

/-- Settles O44: a digit's character is below the letters, and the six letters end at 0x46. -/
theorem hexCharsAreUpperCase : Obligations.HexCharsAreUpperCase := by
  refine ⟨fun v => hexChar_digit, fun v => hexChar_letter, fun v hv => ?_⟩
  by_cases h : v ≤ 9
  · rw [hexChar_digit h, toNat_ofNat_byte (by omega)]
    omega
  · rw [hexChar_letter (by omega) hv, toNat_ofNat_byte (by omega)]
    omega

/-! ### What HEX_FORMAT writes -/

/-- The bytes HEX_FORMAT reads: the result in force, and a free byte for each byte of it that was
never written. -/
def State.resultBytes (s : State) : List Byte := (s.readBytes 0x0000 s.resultLen.val).1

theorem length_resultBytes (s : State) : s.resultBytes.length = s.resultLen.val :=
  readBytes_length s _ _

/-- Before it sets HEX_COUNT and STATUS, HEX_FORMAT has laid down the hex text of the result. -/
theorem lays_hexText (s : State) :
    Lays 0x0400 s ((hexText s.resultBytes).map some)
      ((s.readBytes 0x0000 s.resultLen.val).2.putBytes 0x0400
        ((hexText s.resultBytes).map some)) where
  touched := (touched_readBytes s _ _ _ _).trans (touched_putBytes _ _ _)
  value k b hk := putBytes_peek_some _ _ k _ b hk

theorem hexFormat_peek_text (s : State) {k : Nat} {c : Byte}
    (h : (hexText s.resultBytes)[k]? = some c) :
    (hexFormatEffect s).peek (0x0400 + k) = some c :=
  (lays_hexText s).value k c (by rw [List.getElem?_map, h, Option.map_some])

theorem hexFormat_sameBytesOutside (s : State) :
    SameBytesOutside s (hexFormatEffect s) 0x0400 (2 * s.resultLen.val) :=
  (hexFormat_touched s).outside

/-! ### A second HEX_FORMAT -/

theorem writeByte_held (s : State) (a : Nat) (b : Byte) (hwf : Memory.wf s.mem)
    (h : s.peek a = some b) : s.writeByte a b = s := by
  rw [State.writeByte, Memory.set_idem s.mem a b hwf h]

/-- Writing the bytes that a run of addresses already holds changes nothing. -/
theorem putBytes_held (s : State) (a : Nat) (bs : List Byte) (hwf : Memory.wf s.mem)
    (h : ∀ k b, bs[k]? = some b → s.peek (a + k) = some b) :
    s.putBytes a (bs.map some) = s := by
  induction bs generalizing a with
  | nil => rfl
  | cons c rest ih =>
    rw [List.map_cons, putBytes_some, writeByte_held s a c hwf (h 0 c rfl)]
    refine ih (a + 1) fun k b hk => ?_
    rw [Nat.add_assoc, Nat.add_comm 1 k]
    exact h (k + 1) b hk

/-- A state is left as it is by HEX_FORMAT when its result is written, HEX holds the text of it, and
HEX_COUNT and STATUS say so. -/
theorem hexFormatEffect_eq_self (s : State) (hwf : Memory.wf s.mem)
    (hresult : WrittenRange s 0 s.resultLen.val)
    (htext : ∀ k c, (hexText s.resultBytes)[k]? = some c → s.peek (0x0400 + k) = some c)
    (hcount : s.hexCount.val = 2 * s.resultLen.val) (hstatus : s.status = .ok) :
    hexFormatEffect s = s := by
  have hreads : (s.readBytes 0x0000 s.resultLen.val).2 = s :=
    readBytes_written_state s _ _ hresult
  have hputs : s.putBytes 0x0400 ((hexText (s.readBytes 0x0000 s.resultLen.val).1).map some) = s :=
    putBytes_held s _ _ hwf htext
  have hcount' : Fin.ofNat 513 (2 * s.resultLen.val) = s.hexCount := by
    rw [← hcount]
    exact Fin.ofNat_val_eq_self s.hexCount
  rw [hexFormatEffect_eq, hreads, hputs, hcount', ← hstatus]

/-- OUT lies below HEX, so HEX_FORMAT leaves the result as it was. -/
theorem hexFormat_peek_out (s : State) {x : Nat} (h : x < 0x0400) :
    (hexFormatEffect s).peek x = s.peek x :=
  hexFormat_sameBytesOutside s x (.inl h)

theorem hexFormat_resultLen (s : State) : (hexFormatEffect s).resultLen = s.resultLen :=
  (hexFormat_touched s).resultLen

theorem hexFormat_writtenResult (s : State) (h : WrittenRange s 0 s.resultLen.val) :
    WrittenRange (hexFormatEffect s) 0 (hexFormatEffect s).resultLen.val := by
  intro k hk
  rw [hexFormat_resultLen] at hk
  have := s.resultLen.isLt
  rw [hexFormat_peek_out s (by omega)]
  exact h k hk

/-- A written result is formatted without a draw. -/
theorem hexFormat_draws (s : State) (h : WrittenRange s 0 s.resultLen.val) :
    (hexFormatEffect s).draws = s.draws := by
  rw [hexFormatEffect_eq, readBytes_written_state s _ _ h]
  exact putBytes_draws_values s _ _

/-- A written result is the same to a second HEX_FORMAT. -/
theorem hexFormat_resultBytes (s : State) (h : WrittenRange s 0 s.resultLen.val) :
    (hexFormatEffect s).resultBytes = s.resultBytes := by
  have := s.resultLen.isLt
  rw [State.resultBytes, hexFormat_resultLen]
  exact (readBytes_congr (hexFormatEffect s) s _ _ (hexFormat_draws s h) fun k hk =>
    hexFormat_peek_out s (by omega)).1

theorem hexFormatEffect_idem (s : State) (hwf : Memory.wf s.mem)
    (hresult : WrittenRange s 0 s.resultLen.val) :
    hexFormatEffect (hexFormatEffect s) = hexFormatEffect s := by
  refine hexFormatEffect_eq_self _ ((hexFormat_touched s).wf hwf)
    (hexFormat_writtenResult s hresult) (fun k c hc => ?_) ?_ rfl
  · rw [hexFormat_resultBytes s hresult] at hc
    exact hexFormat_peek_text s hc
  · rw [hexFormat_hexCount, hexFormat_resultLen]

/-- Settles O45: the hex text laid down at HEX, entry by entry; a second run reads the same written
result and finds its text in HEX. -/
theorem hexFormatWritesTheText : Obligations.HexFormatWritesTheText := by
  refine ⟨fun s => ⟨hexFormatEffect s, rfl, rfl, hexFormat_hexCount s, hexFormat_resultLen s,
    (hexFormat_touched s).tpduLen, fun m hm => ?_, fun m b hm hb => ?_,
    hexFormat_sameBytesOutside s⟩, fun s t hinv ht => ?_⟩
  · have hm' : m < s.resultBytes.length := by rwa [length_resultBytes]
    exact ⟨hexFormat_peek_text s (hexText_high _ m hm'),
      hexFormat_peek_text s (hexText_low _ m hm')⟩
  · exact readBytes_written_value s 0x0000 _ m b hm (by rwa [Nat.zero_add])
  · cases ht
    exact congrArg Host.Outcome.next
      (hexFormatEffect_idem s hinv.memCanonical hinv.resultWritten)

end Sys2Proof.Machine

/-! SUPPORT. The exits (60_exceptions.md): what the error exit and the success exit of a packing
command leave (R94, R95), and the response to an illegal byte (R97). -/

namespace Sys2Proof.Machine

/-! ### The error exit -/

theorem EncodeError.status_cases (e : EncodeError) :
    e.status = .invalidDigit ∨ e.status = .emptyDestination ∨ e.status = .textTooLong ∨
      e.status = .bufferTooSmall := by
  cases e <;> simp [EncodeError.status]

/-- A command that ended without OK ended through the error exit, from a state that differs from
the first in OUT below the capacity and in the draws taken. -/
theorem Ends.failed_of_status {s t : State} (h : Ends s t) (ht : t.status ≠ .ok) :
    ∃ (u : State) (e : EncodeError), t = u.raise e ∧ Touched 0 s.effCap s u := by
  cases h with
  | finished u len tpdu => exact absurd (finish_status u len tpdu) ht
  | failed u e touched => exact ⟨u, e, rfl, touched⟩

/-- The draws of the error exit come after those the command had taken, one for each OUT byte below
the capacity the command started with. -/
theorem Touched.raise_draws_out {s u : State} (h : Touched 0 s.effCap s u) (e : EncodeError) :
    ∃ d, s.draws ≤ d ∧ (u.raise e).draws = d + s.effCap ∧
      ∀ j, j < s.effCap → (u.raise e).peek j = some (Config.freeByte (d + j)) := by
  rw [← h.effCap]
  exact ⟨u.draws, h.draws, raise_draws u e, raise_peek_draw u e⟩

/-- Settles O19: a packing command whose STATUS is not OK ended through the error exit, which sets
the registers and draws OUT; the rest is the frame of every ending. -/
theorem errorExitDiscardsOutAndResults : Obligations.ErrorExitDiscardsOutAndResults := by
  intro i s t hpacks hexec hstatus
  have hends := packs_ends i s t hpacks hexec
  obtain ⟨regs, port, outside⟩ := hends.frame
  obtain ⟨u, e, rfl, touched⟩ := hends.failed_of_status hstatus
  obtain ⟨status, resultLen, tpduLen, hexCount⟩ := raise_failedWith u e
  exact ⟨status ▸ e.status_cases, resultLen, tpduLen, hexCount, touched.raise_draws_out e,
    outside, regs, port⟩

/-! ### The success exit -/

/-- What a success exit leaves of OUT and HEX: RESULT_LEN written bytes within the capacity, and
every other byte as it was. -/
structure SucceededFrom (s t : State) : Prop where
  written : WrittenRange t 0 t.resultLen.val
  outside : SameBytesOutside s t 0 t.resultLen.val
  fits : t.resultLen.val ≤ s.effCap

theorem Ends.succeededFrom {s t : State} (h : Ends s t) (ht : t.status = .ok) :
    SucceededFrom s t := by
  cases h with
  | failed u e => exact absurd ht e.status_ne_ok
  | finished u len tpdu touched fits part written =>
    have hlen : len ≤ 256 := fits.trans (effCap_le s)
    have hresult := (finish_finishedWith u len tpdu hlen (part.trans hlen)).resultLen
    constructor <;> rw [hresult]
    · exact fun k hk => by simpa using written k hk
    · exact fun x hx => touched.outside x (by omega)
    · exact fits

/-- A command closed by `finish(p, 0)` leaves TPDU_LEN 0, whichever exit it took. -/
theorem close_finish_tpduLen (r : Progress) :
    (r.close fun p s => s.finish p 0).tpduLen = 0 := by
  cases r with
  | reached p s => exact finish_tpduLen s p 0
  | raised e s => exact raise_tpduLen s e

/-- PACK_PHONE and PACK_TEXT make no TPDU (R65, R72). -/
theorem packs_tpduLen (i : Instr) (s t : State) (hpacks : Packs i) (hi : i ≠ .encodePdu)
    (h : exec i s = .next t) : t.tpduLen = 0 := by
  cases i <;> cases h
  case packPhone => exact close_finish_tpduLen _
  case packText => exact close_finish_tpduLen _
  case encodePdu => exact absurd rfl hi
  case hexFormat => exact hpacks.elim

/-- Settles O20: a packing command whose STATUS is OK ended through the success exit, and only
ENCODE_PDU gives that exit a TPDU length. -/
theorem successExitKeepsTheRest : Obligations.SuccessExitKeepsTheRest := by
  intro i s t hpacks hexec hstatus
  have hends := packs_ends i s t hpacks hexec
  obtain ⟨regs, port, -⟩ := hends.frame
  obtain ⟨written, outside, fits⟩ := hends.succeededFrom hstatus
  exact ⟨written, outside, congrArg Fin.val hends.hexCount,
    fun hi => congrArg Fin.val (packs_tpduLen i s t hpacks hi hexec), fits, regs, port⟩

/-! ### The response to an illegal byte -/

theorem memRead_status (s : State) (dc : DigitCheck) :
    s.memRead dc 0x0601#16 = (s.status.code, s) :=
  memRead_register s dc .status

/-- Settles O5: the CMD write of an illegal byte is the response of R97, and STATUS reads as the
code it left. -/
theorem illegalByteSetsStatusOnly : Obligations.IllegalByteSetsStatusOnly := by
  intro s v e rest hport herror
  refine ⟨?_, fun dc => memRead_status _ dc⟩
  rw [step_cmdWrite s v rest hport, command_error _ exec v e herror]
  rfl

end Sys2Proof.Machine

/-! SUPPORT. The invariant of the block (10_state.md): it holds at reset, and each thing a step can
do keeps it. -/

namespace Sys2Proof.Machine

/-! ### Keeping the result in force -/

/-- The invariant speaks of OUT, HEX and the result registers only, so whatever keeps those, the
canonical form and the bounds of the memory keeps it. -/
theorem BlockInv.of_sameOutAndHex {s t : State} (h : BlockInv s) (regs : SameResults s t)
    (wf : Memory.wf t.mem) (bound : ∀ c ∈ t.mem, c.1 < 0x0600)
    (bytes : ∀ x, x < 0x0100 ∨ 0x0400 ≤ x → t.peek x = s.peek x) : BlockInv t where
  memCanonical := wf
  memInBuffers := bound
  resultWritten k hk := by
    rw [regs.resultLen] at hk
    have := s.resultLen.isLt
    rw [bytes _ (.inl (by omega))]
    exact h.resultWritten k hk
  tpduWithinResult := by
    rw [regs.tpduLen, regs.resultLen]
    exact h.tpduWithinResult
  hexCountOfResult := by
    rw [regs.hexCount, regs.resultLen]
    exact h.hexCountOfResult
  hexOfResult m b hm hb := by
    rw [regs.hexCount] at hm
    have := s.hexCount.isLt
    rw [bytes _ (.inl (by omega))] at hb
    rw [bytes _ (.inr (by omega)), bytes _ (.inr (by omega))]
    exact h.hexOfResult m b hm hb

theorem BlockInv.of_sameMem {s t : State} (h : BlockInv s) (regs : SameResults s t)
    (hmem : t.mem = s.mem) : BlockInv t :=
  h.of_sameOutAndHex regs (hmem ▸ h.memCanonical) (hmem ▸ h.memInBuffers) fun x _ =>
    congrArg (Memory.get · x) hmem

/-- Storing an input byte touches neither OUT nor HEX. -/
theorem BlockInv.of_writeByte_input {s : State} (h : BlockInv s) (a : Nat) (v : Byte)
    (ha : 0x0100 ≤ a) (ha' : a < 0x0400) : BlockInv (s.writeByte a v) := by
  refine h.of_sameOutAndHex ⟨rfl, rfl, rfl⟩ (Memory.set_wf _ a v h.memCanonical) (fun c hc => ?_)
    fun x hx => writeByte_peek_other s a x v (by omega)
  rcases Memory.mem_set _ a v c hc with rfl | hc
  · show a < 0x0600
    omega
  · exact h.memInBuffers c hc

theorem BlockInv.of_writeReg {s : State} (h : BlockInv s) (v : Byte) (r : Reg) :
    BlockInv (s.writeReg v r) := by
  cases r <;> exact h.of_sameMem ⟨rfl, rfl, rfl⟩ rfl

/-- A host read changes the observation and the count of draws only. -/
theorem hostRead_state (s : State) (dc : DigitCheck) (a : Addr) :
    s.hostRead dc a = { s with observed := (s.hostRead dc a).observed,
                               draws := (s.hostRead dc a).draws } := by
  by_cases hbuf : a.toNat < 0x0600
  · cases hp : s.peek a.toNat with
    | some v => rw [hostRead_written s dc a v hbuf hp]
    | none => rw [hostRead_unwritten s dc a hbuf hp]
  by_cases hres : 0x060E ≤ a.toNat
  · rw [hostRead_reserved s dc a hres]
  · obtain ⟨r, rfl⟩ := exists_register a (by omega) (by omega)
    rw [hostRead_register]

theorem BlockInv.of_hostRead {s : State} (h : BlockInv s) (dc : DigitCheck) (a : Addr) :
    BlockInv (s.hostRead dc a) := by
  rw [hostRead_state]
  exact h.of_sameMem ⟨rfl, rfl, rfl⟩ rfl

/-! ### A new result -/

/-- Both exits of a packing command leave a written result, a TPDU within it, and no hex text. -/
theorem BlockInv.of_ends {s t : State} (h : BlockInv s) (hends : Ends s t) : BlockInv t := by
  have hcap := effCap_le s
  have hhex := hends.hexCount
  cases hends with
  | finished u len tpdu touched fits part written =>
    obtain ⟨-, hlen, htpdu, -⟩ := finish_finishedWith u len tpdu (by omega) (by omega)
    refine ⟨touched.wf h.memCanonical, touched.bound _ (by omega) h.memInBuffers, fun k hk => ?_,
      by omega, .inl (by rw [hhex]; rfl), fun m b hm => ?_⟩
    · rw [hlen] at hk
      rw [finish_peek, Nat.zero_add]
      exact written k hk
    · rw [hhex] at hm
      exact absurd hm (Nat.not_lt_zero _)
  | failed u e touched =>
    have hu := touched.effCap
    refine ⟨raise_wf u e (touched.wf h.memCanonical),
      putBytes_mem_lt u 0 _ _ (by rw [List.length_replicate]; omega)
        (touched.bound _ (by omega) h.memInBuffers),
      fun k hk => absurd hk (Nat.not_lt_zero _), le_rfl, .inl rfl,
      fun m b hm => absurd hm (Nat.not_lt_zero _)⟩

/-- The hex text HEX_FORMAT lays down is that of the result in force. -/
theorem BlockInv.of_hexFormat {s : State} (h : BlockInv s) : BlockInv (hexFormatEffect s) := by
  have htouched := hexFormat_touched s
  have hlen := s.resultLen.isLt
  refine ⟨htouched.wf h.memCanonical, htouched.bound _ (by omega) h.memInBuffers,
    hexFormat_writtenResult s h.resultWritten, ?_, .inr ?_, fun m b hm hb => ?_⟩
  · have htpdu : (hexFormatEffect s).tpduLen = s.tpduLen := htouched.tpduLen
    rw [htpdu, hexFormat_resultLen]
    exact h.tpduWithinResult
  · rw [hexFormat_hexCount, hexFormat_resultLen]
  · rw [hexFormat_hexCount] at hm
    rw [hexFormat_peek_out s (by omega)] at hb
    have hm' : m < s.resultBytes.length := by
      rw [length_resultBytes]
      omega
    have hread : s.resultBytes.getD m 0#8 = b :=
      readBytes_written_value s 0x0000 _ m b (by omega) (by rwa [Nat.zero_add])
    rw [← hread]
    exact ⟨hexFormat_peek_text s (hexText_high _ m hm'),
      hexFormat_peek_text s (hexText_low _ m hm')⟩

theorem BlockInv.of_exec {s t : State} (h : BlockInv s) (i : Instr) (ht : exec i s = .next t) :
    BlockInv t := by
  rcases exec_cases i s with ⟨-, u, hu, hends⟩ | ⟨-, hx⟩
  · rw [hu] at ht
    cases ht
    exact h.of_ends hends
  · rw [hx] at ht
    cases ht
    exact h.of_hexFormat

theorem BlockInv.of_command {s t : State} (h : BlockInv s) (v : Byte)
    (ht : s.command exec v = .next t) : BlockInv t := by
  cases hd : decode v with
  | ok i => exact h.of_exec i (command_ok s exec v i hd ▸ ht)
  | error e =>
    rw [command_error s exec v e hd] at ht
    cases ht
    exact h.of_sameMem ⟨rfl, rfl, rfl⟩ rfl

/-! ### The step -/

theorem BlockInv.of_hostWrite {s t : State} (h : BlockInv s) (a : Addr) (v : Byte)
    (ht : s.hostWrite exec a v = .next t) : BlockInv t := by
  by_cases ha : a = Reg.cmd.addr
  · rw [ha, hostWrite_register, if_pos rfl] at ht
    exact h.of_command v ht
  rcases hostWrite_other_cases s exec a v ha with hw | ⟨hlo, hhi, hw⟩ | ⟨r, -, -, hw⟩ <;>
    rw [hw] at ht <;> cases ht
  · exact h
  · exact h.of_writeByte_input _ v hlo hhi
  · exact h.of_writeReg v r

/-- Settles O47: no byte is written, no result is in force, HEX_COUNT is 0. -/
theorem resetMeetsInv : Obligations.ResetMeetsInv :=
  ⟨Memory.reset_wf, fun _ hc => absurd hc List.not_mem_nil,
    fun _ hk => absurd hk (Nat.not_lt_zero _), le_rfl, .inl rfl,
    fun _ _ hm => absurd hm (Nat.not_lt_zero _)⟩

/-- Settles O46, by the port event the step takes: a host read and an idle step keep all the
invariant speaks of, a host write stores an input or runs a command, a reset leaves what
`State.reset` holds. -/
theorem everyStepKeepsInv : Obligations.EveryStepKeepsInv := by
  intro s t h ht
  cases hport : s.port with
  | nil =>
    rw [step_idle s hport] at ht
    cases ht
    exact h
  | cons event rest =>
    have hrest : BlockInv { s with port := rest } := h.of_sameMem ⟨rfl, rfl, rfl⟩ rfl
    cases event with
    | read a =>
      rw [step_read s a rest hport] at ht
      cases ht
      exact hrest.of_hostRead _ a
    | write a v =>
      rw [step_write s a v rest hport] at ht
      exact hrest.of_hostWrite a v ht
    | reset =>
      rw [step_reset s rest hport] at ht
      cases ht
      exact BlockInv.of_sameMem resetMeetsInv ⟨rfl, rfl, rfl⟩ rfl

end Sys2Proof.Machine

/-! SUPPORT. The accesses of the port and the step (10_state.md, 20_memory.md, 30_encoding.md): the
command a CMD write runs, what a host read returns over the map (R15, R35), what a host write to an
input stores (R21, R22), and the other events. -/

namespace Sys2Proof.Machine

/-! ### The CMD write -/

/-- Settles O2: each command is decoded from its own byte, and the fields a command was decoded from
are the whole byte. -/
theorem decodeAndEncodeAreInverse : Obligations.DecodeAndEncodeAreInverse :=
  ⟨decode_encode, encode_of_decode⟩

/-- Settles O4: a CMD write is the command of its byte, and the byte decodes. -/
theorem stepRunsDecodedCommand : Obligations.StepRunsDecodedCommand := by
  intro s v i rest hport hdecode _
  rw [step_cmdWrite s v rest hport, command_ok _ exec v i hdecode]

/-- Settles O50: the one event of `cmd M` is the CMD write of M's byte, which decodes to M. -/
theorem cmdLineRunsItsCommand : Obligations.CmdLineRunsItsCommand := by
  intro i s rest hport
  rw [step_cmdWrite s (encode i) rest hport, command_ok _ exec _ i (decode_encode i)]

/-! ### What a read returns -/

theorem loByte_eq (n : Nat) : loByte n = BitVec.ofNat 8 (n % 256) := by
  apply BitVec.eq_of_toNat_eq
  simp [loByte]

theorem hiByte_eq (n : Nat) : hiByte n = BitVec.ofNat 8 (n / 256) := by
  rw [hiByte, Nat.shiftRight_eq_div_pow]

/-- The `_LO` byte and the `_HI` byte of a value of at most 16 bits recombine to it (R35, R59). -/
theorem rd16Value_loByte_hiByte (n : Nat) (h : n < 65536) :
    rd16Value (loByte n) (hiByte n) = n := by
  have hhi : n / 256 < 256 := by omega
  have hlo : (loByte n).toNat < 2 ^ 8 := (loByte n).isLt
  rw [rd16Value, Nat.or_comm, ← Nat.shiftLeft_add_eq_or_of_lt hlo, Nat.shiftLeft_eq]
  simp only [loByte_eq, hiByte_eq, BitVec.toNat_ofNat]
  omega

/-- The table of the register map, each register at its address with the byte it reads as (R15). -/
theorem readReg_table (s : State) :
    Reg.all.map (fun r => (r.addr, s.readReg .strict r)) =
      [(0x0600#16, 0x00#8), (0x0601#16, s.status.code),
        (0x0602#16, BitVec.ofNat 8 (s.resultLen.val % 256)),
        (0x0603#16, BitVec.ofNat 8 (s.resultLen.val / 256)),
        (0x0604#16, BitVec.ofNat 8 (s.tpduLen.val % 256)),
        (0x0605#16, BitVec.ofNat 8 (s.tpduLen.val / 256)),
        (0x0606#16, BitVec.ofNat 8 (s.hexCount.val % 256)),
        (0x0607#16, BitVec.ofNat 8 (s.hexCount.val / 256)),
        (0x0608#16, s.scLen), (0x0609#16, s.daLen), (0x060A#16, s.textLen), (0x060B#16, 0x00#8),
        (0x060C#16, BitVec.ofNat 8 (s.outCap.toNat % 256)),
        (0x060D#16, BitVec.ofNat 8 (s.outCap.toNat / 256))] := by
  simp only [← loByte_eq, ← hiByte_eq]
  rfl

/-- Settles O6: a register's address, a reserved address and a written buffer byte each return what
their kind of read returns. -/
theorem hostReadReturnsTheMap : Obligations.HostReadReturnsTheMap := by
  intro s a v rest hport h
  rw [step_read s a rest hport]
  rcases h with hreg | ⟨hres, rfl⟩ | ⟨hbuf, hpeek⟩
  · rw [← readReg_table, List.mem_map] at hreg
    obtain ⟨r, -, hr⟩ := hreg
    cases hr
    exact congrArg Host.Outcome.next (hostRead_register _ Config.digitCheck r)
  · exact congrArg Host.Outcome.next (hostRead_reserved _ Config.digitCheck a hres)
  · exact congrArg Host.Outcome.next (hostRead_written _ Config.digitCheck a v hbuf hpeek)

/-- Settles O17: each pair of registers holds the `_LO` and the `_HI` byte of one value. -/
theorem wideRegistersReadLittleEndian : Obligations.WideRegistersReadLittleEndian := by
  intro s dc
  simp only [memRead_register]
  exact ⟨rd16Value_loByte_hiByte _ (by omega), rd16Value_loByte_hiByte _ (by omega),
    rd16Value_loByte_hiByte _ (by omega), rd16Value_loByte_hiByte _ (by omega)⟩

/-! ### What a write stores -/

/-- Settles O8: the access is the store of one byte. -/
theorem hostWriteStoresInputByte : Obligations.HostWriteStoresInputByte := by
  intro s a v rest hport hlo hhi
  refine ⟨_, (step_write s a v rest hport).trans (hostWrite_input _ exec a v hlo hhi), rfl,
    writeByte_peek_same _ _ v, fun x hx => writeByte_peek_other _ _ x v (by omega),
    Memory.set_wf _ _ v⟩

/-- A host write to a register other than CMD stores into that register. -/
theorem step_regWrite (s : State) (r : Reg) (hr : r ≠ .cmd) (v : Byte) (rest : List PortEvent)
    (h : s.port = .write r.addr v :: rest) :
    step s = .next (State.writeReg { s with port := rest } v r) := by
  rw [step_write s _ v rest h, hostWrite_register, if_neg hr]

/-- Settles O9: the three length registers store what is written to them. -/
theorem hostWriteStoresLength : Obligations.HostWriteStoresLength :=
  fun s v rest => ⟨step_regWrite s .scLen (by decide) v rest,
    step_regWrite s .daLen (by decide) v rest, step_regWrite s .textLen (by decide) v rest⟩

theorem outCapLo_toNat (cap : BitVec 9) (v : Byte) :
    (cap.extractLsb' 8 1 ++ v : BitVec 9).toNat = 256 * (cap.toNat / 256) + v.toNat := by
  have hhi : cap.toNat / 256 < 2 := by omega
  rw [BitVec.toNat_append, ← Nat.shiftLeft_add_eq_or_of_lt v.isLt, Nat.shiftLeft_eq,
    BitVec.extractLsb'_toNat, Nat.shiftRight_eq_div_pow]
  omega

theorem outCapHi_toNat (cap : BitVec 9) (v : Byte) :
    (v.extractLsb' 0 1 ++ cap.extractLsb' 0 8 : BitVec 9).toNat =
      256 * (v.toNat % 2) + cap.toNat % 256 := by
  rw [BitVec.toNat_append, ← Nat.shiftLeft_add_eq_or_of_lt (BitVec.isLt _), Nat.shiftLeft_eq,
    BitVec.extractLsb'_toNat, BitVec.extractLsb'_toNat, Nat.shiftRight_zero, Nat.shiftRight_zero]
  omega

theorem effCap_eq (s : State) :
    s.effCap = if s.outCap.toNat ≤ 256 then s.outCap.toNat else 256 := Nat.min_def

/-- Settles O10: each half of OUT_CAP is stored beside the other, and the two read back as one
value. -/
theorem outCapIsWrittenInHalves : Obligations.OutCapIsWrittenInHalves := by
  refine ⟨fun s v rest => ⟨fun h => ?_, fun h => ?_⟩,
    fun s dc => ?_, effCap_eq⟩
  · exact ⟨_, outCapLo_toNat s.outCap v, step_regWrite s .outCapLo (by decide) v rest h⟩
  · exact ⟨_, outCapHi_toNat s.outCap v, step_regWrite s .outCapHi (by decide) v rest h⟩
  · obtain ⟨-, -, -, houtCap⟩ := wideRegistersReadLittleEndian s dc
    exact houtCap

/-! ### The other events, and both builds -/

/-- Settles O18: a step with no event to take. -/
theorem idleBlockHoldsItsState : Obligations.IdleBlockHoldsItsState := step_idle

/-- Settles O15: the reset event is `State.reset` but for the fields the event keeps. -/
theorem resetEventRestoresReset : Obligations.ResetEventRestoresReset := fun s rest h =>
  ⟨_, step_reset s rest h, rfl, rfl, rfl, rfl, rfl, rfl, rfl, rfl, fun _ => rfl, rfl, rfl, rfl⟩

theorem execFor_strict : execFor .strict = exec := by
  funext i s
  cases i <;> rfl

/-- Settles O13: the builds differ in CONFIG's byte and in the digit checks, both STRICT's here. -/
theorem strictBuildIsThisHardware : Obligations.StrictBuildIsThisHardware := by
  intro s
  rw [stepFor, execFor_strict]
  rfl

theorem execFor_next (dc : DigitCheck) (i : Instr) (s : State) :
    ∃ t, execFor dc i s = .next t := by
  cases i <;> exact ⟨_, rfl⟩

/-- A host write answers a next state when every command does. -/
theorem hostWrite_next (s : State) (run : Instr → State → Host.Outcome State Fault Refusal)
    (hrun : ∀ i s, ∃ t, run i s = .next t) (a : Addr) (v : Byte) :
    ∃ t, s.hostWrite run a v = .next t := by
  by_cases ha : a = Reg.cmd.addr
  · rw [ha, hostWrite_register, if_pos rfl]
    cases hd : decode v with
    | ok i => rw [command_ok s run v i hd]; exact hrun i s
    | error e => exact ⟨_, command_error s run v e hd⟩
  · rcases hostWrite_other_cases s run a v ha with hw | ⟨-, -, hw⟩ | ⟨r, -, -, hw⟩
    all_goals exact ⟨_, hw⟩

theorem takeEvent_next (s : State) (dc : DigitCheck)
    (run : Instr → State → Host.Outcome State Fault Refusal)
    (hrun : ∀ i s, ∃ t, run i s = .next t) : ∃ t, s.takeEvent dc run = .next t := by
  unfold State.takeEvent
  split
  · exact ⟨_, rfl⟩
  · exact ⟨_, rfl⟩
  · exact hostWrite_next _ run hrun _ _
  · exact ⟨_, rfl⟩

/-- Settles O12: every event is taken, and every command of either build answers a next state. -/
theorem everyStepAnswersANextState : Obligations.EveryStepAnswersANextState :=
  ⟨fun s => takeEvent_next s _ exec (execFor_strict ▸ execFor_next .strict),
    fun dc s => takeEvent_next s dc _ (execFor_next dc)⟩

end Sys2Proof.Machine

/-! SUPPORT. The frames and the statuses of the commands (10_state.md section 5, 60_exceptions.md),
and that no command reads STATUS. -/

namespace Sys2Proof.Machine

/-! ### Frames -/

/-- Settles O21, by the frame that both exits keep. -/
theorem packingCommandsFrame : Obligations.PackingCommandsFrame :=
  fun i s t hpacks h => (packs_ends i s t hpacks h).frame

/-- Settles O22: HEX_FORMAT touches its text in HEX, and sets HEX_COUNT and STATUS. -/
theorem hexFormatFrame : Obligations.HexFormatFrame := by
  intro s t h
  cases h
  have htouched := hexFormat_touched s
  exact ⟨hexFormat_resultLen s, htouched.tpduLen, (hexFormat_sameInputs s).regs,
    ⟨htouched.port, htouched.observed⟩, hexFormat_sameBytesOutside s⟩

/-! ### Statuses -/

theorem EncodeError.status_ne_illegalCommand (e : EncodeError) : e.status ≠ .illegalCommand := by
  cases e <;> decide

theorem Ends.status_ne_illegalCommand {s t : State} (h : Ends s t) :
    t.status ≠ .illegalCommand := by
  cases h with
  | finished u len tpdu =>
    rw [finish_status]
    decide
  | failed u e => exact e.status_ne_illegalCommand

/-- Settles O25: the codes are literals, and each command ends through its own exits. -/
theorem statusOfEachCommand : Obligations.StatusOfEachCommand := by
  refine ⟨⟨rfl, rfl, rfl, rfl, rfl, rfl⟩, fun src s t h => ?_, fun s t h => ?_, fun s t h => ?_,
    fun s t h => ?_⟩
  · cases h
    exact packPhoneWith_status Config.digitCheck src s
  · cases h
    exact packTextEffect_status s
  · exact (packs_ends .encodePdu s t trivial h).status_ne_illegalCommand
  · cases h
    rfl

/-! ### STATUS is not read -/

/-- The state with another STATUS. -/
def State.withStatus (s : State) (c : Status) : State := { s with status := c }

/-- The progress of a packing command, in the state with another STATUS. -/
def Progress.withStatus (r : Progress) (c : Status) : Progress :=
  match r with
  | .reached p s => .reached p (s.withStatus c)
  | .raised e s => .raised e (s.withStatus c)

section
variable (s : State) (c : Status)

theorem readByte_withStatus (a : Nat) :
    (s.withStatus c).readByte a = ((s.readByte a).1, (s.readByte a).2.withStatus c) := by
  cases h : s.peek a with
  | some b => rw [readByte_written s a b h, readByte_written (s.withStatus c) a b h]
  | none => rw [readByte_unwritten s a h, readByte_unwritten (s.withStatus c) a h]; rfl

theorem readBytes_withStatus (a n : Nat) :
    (s.withStatus c).readBytes a n = ((s.readBytes a n).1, (s.readBytes a n).2.withStatus c) := by
  induction n generalizing s a with
  | zero => rfl
  | succ n ih => simp only [readBytes_succ, readByte_withStatus, ih]

theorem putBytes_withStatus (a : Nat) (os : List (Option Byte)) :
    (s.withStatus c).putBytes a os = (s.putBytes a os).withStatus c := by
  induction os generalizing s a with
  | nil => rfl
  | cons o rest ih =>
    cases o with
    | some b => exact ih (s.writeByte a b) (a + 1)
    | none => exact ih (s.draw.2.writeByte a (Config.freeByte s.draws)) (a + 1)

/-- The error exit overwrites STATUS. -/
theorem raise_withStatus (e : EncodeError) : (s.withStatus c).raise e = s.raise e := by
  have heff : (s.withStatus c).effCap = s.effCap := rfl
  rw [State.raise, heff, putBytes_withStatus]
  rfl

theorem ifFits_withStatus (p n : Nat) (r : Progress) :
    (s.withStatus c).ifFits p n (r.withStatus c) = (s.ifFits p n r).withStatus c := by
  have heff : (s.withStatus c).effCap = s.effCap := rfl
  by_cases h : p + n ≤ s.effCap
  · rw [ifFits_fits _ _ _ _ h, ifFits_fits _ _ _ _ (heff ▸ h)]
  · rw [ifFits_exceeds _ _ _ _ (by omega), ifFits_exceeds _ _ _ _ (by omega)]
    rfl

theorem packDigits_withStatus (dc : DigitCheck) (src n p : Nat) :
    packDigits dc src n p (s.withStatus c) = (packDigits dc src n p s).withStatus c := by
  simp only [packDigits, readBytes_withStatus, putBytes_withStatus]
  split <;> rfl

theorem packSeptets_withStatus (n p : Nat) :
    packSeptets n p (s.withStatus c) = (packSeptets n p s).withStatus c := by
  simp only [packSeptets_eq, readBytes_withStatus, putBytes_withStatus]
  rfl

theorem putOctets_withStatus (p : Nat) (octets : List Byte) :
    (s.withStatus c).putOctets p octets = (s.putOctets p octets).withStatus c := by
  rw [State.putOctets, putBytes_withStatus]
  exact ifFits_withStatus s c p _ (.reached _ (s.putBytes p (octets.map some)))

theorem addressField_withStatus (dc : DigitCheck) (src : PhoneSource) (p : Nat) :
    addressField dc src p (s.withStatus c) = (addressField dc src p s).withStatus c := by
  have hlen : (s.withStatus c).phoneLen src = s.phoneLen src := by cases src <;> rfl
  rw [addressField, hlen, putBytes_withStatus, packDigits_withStatus, ifFits_withStatus]
  rfl

theorem scField_withStatus (dc : DigitCheck) (p : Nat) :
    scField dc p (s.withStatus c) = (scField dc p s).withStatus c := by
  unfold scField
  rw [putOctets_withStatus, addressField_withStatus]
  exact (apply_ite (Progress.withStatus · c) _ _ _).symm

theorem userDataField_withStatus (p : Nat) :
    userDataField p (s.withStatus c) = (userDataField p s).withStatus c := by
  unfold userDataField
  rw [putBytes_withStatus]
  exact (congrArg _ (packSeptets_withStatus _ c _ _)).trans (ifFits_withStatus s c p _ _)
end

/-- A next step that carries another STATUS along does so behind any progress. -/
theorem andThen_withStatus (r : Progress) (c : Status) (next : Nat → State → Progress)
    (h : ∀ p s, next p (s.withStatus c) = (next p s).withStatus c) :
    (r.withStatus c).andThen next = (r.andThen next).withStatus c := by
  cases r with
  | reached p s => exact h p s
  | raised e s => rfl

/-- A command's close does not depend on STATUS when its success does not. -/
theorem close_withStatus (r : Progress) (c : Status) (success : Nat → State → State)
    (h : ∀ p s, success p (s.withStatus c) = success p s) :
    (r.withStatus c).close success = r.close success := by
  cases r with
  | reached p s => exact h p s
  | raised e s => exact raise_withStatus s c e

theorem tpduFields_withStatus (dc : DigitCheck) (p : Nat) (s : State) (c : Status) :
    tpduFields dc p (s.withStatus c) = (tpduFields dc p s).withStatus c := by
  unfold tpduFields messageField
  rw [putOctets_withStatus,
    andThen_withStatus _ c (daField dc) fun q t => addressField_withStatus t c dc .da q,
    andThen_withStatus _ c parameterField fun q t => putOctets_withStatus t c q _,
    andThen_withStatus _ c userDataField fun q t => userDataField_withStatus t c q]

theorem packPhoneWith_withStatus (dc : DigitCheck) (src : PhoneSource) (s : State) (c : Status) :
    packPhoneWith dc src (s.withStatus c) = packPhoneWith dc src s := by
  have hlen : (s.withStatus c).phoneLen src = s.phoneLen src := by cases src <;> rfl
  rw [packPhoneWith, hlen, packDigits_withStatus, ifFits_withStatus,
    close_withStatus _ c _ fun _ _ => rfl]
  rfl

theorem packTextEffect_withStatus (s : State) (c : Status) :
    packTextEffect (s.withStatus c) = packTextEffect s := by
  unfold packTextEffect
  rw [packSeptets_withStatus, ifFits_withStatus, close_withStatus _ c _ fun _ _ => rfl]
  rfl

theorem encodePduWith_withStatus (dc : DigitCheck) (s : State) (c : Status) :
    encodePduWith dc (s.withStatus c) = encodePduWith dc s := by
  unfold encodePduWith
  rw [raise_withStatus, raise_withStatus, scField_withStatus, close_withStatus]
  · rfl
  · intro scEnd u
    rw [tpduFields_withStatus, close_withStatus _ c _ fun _ _ => rfl]

theorem hexFormatEffect_withStatus (s : State) (c : Status) :
    hexFormatEffect (s.withStatus c) = hexFormatEffect s := by
  have hlen : (s.withStatus c).resultLen = s.resultLen := rfl
  rw [hexFormatEffect_eq, hexFormatEffect_eq, hlen, readBytes_withStatus, putBytes_withStatus]
  rfl

/-- Settles O48: every operation carries another STATUS along, and every exit overwrites it. -/
theorem commandsDoNotReadStatus : Obligations.CommandsDoNotReadStatus := by
  intro i s c
  cases i with
  | packPhone src => exact congrArg Host.Outcome.next (packPhoneWith_withStatus _ src s c)
  | packText => exact congrArg Host.Outcome.next (packTextEffect_withStatus s c)
  | encodePdu => exact congrArg Host.Outcome.next (encodePduWith_withStatus _ s c)
  | hexFormat => exact congrArg Host.Outcome.next (hexFormatEffect_withStatus s c)

end Sys2Proof.Machine

/-! SUPPORT. The characters the commands read (10_state.md section 6, 20_memory.md section 4): a
written byte as it stands, an unwritten one as a fresh draw. -/

namespace Sys2Proof.Machine

/-! ### Written bytes -/

theorem afterSc_peek (s : State) (x : Nat) : s.afterSc.peek x = s.peek x := readBytes_peek s _ _ x

theorem afterDa_peek (s : State) (x : Nat) : s.afterDa.peek x = s.peek x :=
  (readBytes_peek s.afterSc _ _ x).trans (afterSc_peek s x)

theorem afterSc_daLen (s : State) : s.afterSc.daLen = s.daLen := readBytes_daLen s _ _

theorem afterDa_textLen (s : State) : s.afterDa.textLen = s.textLen :=
  (readBytes_textLen s.afterSc _ _).trans (readBytes_textLen s _ _)

theorem phoneBytes_written (s : State) (src : PhoneSource) {k : Nat} {b : Byte}
    (hk : k < s.phoneLen src) (hb : s.peek ((phoneBuffer src).base + k) = some b) :
    (s.phoneBytes src).getD k 0#8 = b :=
  readBytes_written_value s _ _ k b hk hb

theorem textBytes_written (s : State) {k : Nat} {b : Byte} (hk : k < s.textLen.toNat)
    (hb : s.peek (0x0300 + k) = some b) : s.textBytes.getD k 0#8 = b :=
  readBytes_written_value s _ _ k b hk hb

/-- Settles O27: a run's read returns the written bytes of the run, also after the draws of
ENCODE_PDU's earlier strings, which write nothing. -/
theorem commandsReadTheWrittenInputs : Obligations.CommandsReadTheWrittenInputs := by
  refine fun s k b => ⟨fun hk hb => ?_, fun hk hb => ?_, fun hk hb => ?_⟩
  · exact ⟨phoneBytes_written s .sc hk hb, phoneBytes_written s .sc hk hb⟩
  · refine ⟨phoneBytes_written s .da hk hb, phoneBytes_written s.afterSc .da ?_ ?_⟩
    · rwa [State.phoneLen, afterSc_daLen]
    · rwa [afterSc_peek]
  · refine ⟨textBytes_written s hk hb, textBytes_written s.afterDa ?_ ?_⟩
    · rwa [afterDa_textLen]
    · rwa [afterDa_peek]

/-! ### Unwritten bytes -/

theorem readBytes_unwritten_succ (s : State) (a n : Nat) (h : s.peek a = none) :
    s.readBytes a (n + 1) =
      (Config.freeByte s.draws :: (s.draw.2.readBytes (a + 1) n).1,
        (s.draw.2.readBytes (a + 1) n).2) := by
  rw [readBytes_succ, readByte_unwritten s a h, draw_value]

/-- Settles O28, by induction on the length of the run: each read takes the next draw. -/
theorem unwrittenBytesReadAsFreshDraws : Obligations.UnwrittenBytesReadAsFreshDraws := by
  intro s a n h
  induction n generalizing s a with
  | zero => exact ⟨rfl, fun k hk => absurd hk (Nat.not_lt_zero k)⟩
  | succ n ih =>
    have hrest : ∀ k, k < n → s.draw.2.peek (a + 1 + k) = none := fun k hk => by
      rw [draw_peek, Nat.add_assoc, Nat.add_comm 1 k]
      exact h (k + 1) (by omega)
    obtain ⟨hstate, hvalues⟩ := ih s.draw.2 (a + 1) hrest
    rw [readBytes_unwritten_succ s a n (h 0 (by omega))]
    refine ⟨?_, fun k hk => ?_⟩
    · rw [hstate, draw_draws, Nat.add_assoc, Nat.add_comm 1 n]
      rfl
    · cases k with
      | zero => rfl
      | succ k =>
        rw [List.getD_cons_succ, hvalues k (by omega), draw_draws, Nat.add_assoc, Nat.add_comm 1 k]

end Sys2Proof.Machine

/-! SUPPORT. The phone number packer (41_phone_number_packer.md) without its digit check (R63), and
the semi-octets unpacked again (R66). -/

namespace Sys2Proof.Machine

/-! ### The PASSTHROUGH build -/

/-- The semi-octets of the string `src` selects, written from OUT[0] on, and the success exit. -/
theorem packPhoneWith_passthrough (src : PhoneSource) (s : State)
    (hfit : ceilDiv (s.phoneLen src) 2 ≤ s.effCap) :
    packPhoneWith .passthrough src s =
      ((s.readBytes (phoneBuffer src).base (s.phoneLen src)).2.putBytes 0
        (semiOctets (s.phoneBytes src))).finish (ceilDiv (s.phoneLen src) 2) 0 := by
  rw [packPhoneWith_fits _ src s hfit, packDigits_packs .passthrough _ _ 0 s nofun, close_reached,
    Nat.zero_add]
  rfl

section
variable (src : PhoneSource) (s : State) (hfit : ceilDiv (s.phoneLen src) 2 ≤ s.effCap) {m : Nat}
include hfit

/-- A semi-octet with a value stands in OUT. -/
theorem packPhoneWith_passthrough_value {b : Byte}
    (h : (semiOctets (s.phoneBytes src))[m]? = some (some b)) :
    (packPhoneWith .passthrough src s).peek m = some b := by
  rw [packPhoneWith_passthrough src s hfit, finish_peek, ← Nat.zero_add m]
  exact putBytes_peek_some _ 0 m _ b h

/-- A semi-octet without a value is a draw taken by the command. -/
theorem packPhoneWith_passthrough_draw
    (h : (semiOctets (s.phoneBytes src))[m]? = some none) :
    ∃ d, s.draws ≤ d ∧
      (packPhoneWith .passthrough src s).peek m = some (Config.freeByte d) := by
  rw [packPhoneWith_passthrough src s hfit, finish_peek, ← Nat.zero_add m]
  obtain ⟨d, hd, hpeek⟩ := putBytes_peek_none _ 0 m _ h
  exact ⟨d, (readBytes_draws_le s _ _).trans hd, hpeek⟩
end

theorem pairOctet_nonDigit (c0 c1 : Byte) (h : ¬ (isDigit c0 = true ∧ isDigit c1 = true)) :
    pairOctet c0 c1 = none := by
  rw [pairOctet, if_neg (by rwa [Bool.and_eq_true])]

theorem lastOctet_nonDigit (c : Byte) (h : isDigit c = false) : lastOctet c = none := by
  rw [lastOctet, h]
  rfl

/-- The progress is no INVALID_DIGIT. -/
def Progress.DigitsAccepted : Progress → Prop
  | .reached _ _ => True
  | .raised e _ => e ≠ .invalidDigit

theorem ifFits_digitsAccepted (s : State) (p n : Nat) (r : Progress) (h : r.DigitsAccepted) :
    (s.ifFits p n r).DigitsAccepted := by
  unfold State.ifFits
  split
  · exact nofun
  · exact h

theorem packDigits_digitsAccepted (src n p : Nat) (s : State) :
    (packDigits .passthrough src n p s).DigitsAccepted := by
  rw [packDigits_packs .passthrough src n p s nofun]
  trivial

theorem putOctets_digitsAccepted (s : State) (p : Nat) (octets : List Byte) :
    (s.putOctets p octets).DigitsAccepted := ifFits_digitsAccepted _ _ _ _ trivial

theorem addressField_digitsAccepted (src : PhoneSource) (p : Nat) (s : State) :
    (addressField .passthrough src p s).DigitsAccepted :=
  ifFits_digitsAccepted _ _ _ _ (packDigits_digitsAccepted _ _ _ _)

theorem andThen_digitsAccepted {r : Progress} {next : Nat → State → Progress}
    (h : r.DigitsAccepted) (hnext : ∀ p s, (next p s).DigitsAccepted) :
    (r.andThen next).DigitsAccepted := by
  cases r with
  | reached p s => exact hnext p s
  | raised e s => exact h

theorem close_status_ne_invalidDigit {r : Progress} {success : Nat → State → State}
    (h : r.DigitsAccepted) (hsuccess : ∀ p s, (success p s).status ≠ .invalidDigit) :
    (r.close success).status ≠ .invalidDigit := by
  cases r with
  | reached p s => exact hsuccess p s
  | raised e s =>
    cases e
    case invalidDigit => exact absurd rfl h
    all_goals exact nofun

theorem encodePduWith_passthrough_status (s : State) :
    (encodePduWith .passthrough s).status ≠ .invalidDigit := by
  unfold encodePduWith
  split
  · exact nofun
  split
  · exact nofun
  have hsc : (scField .passthrough 0 s).DigitsAccepted := by
    unfold scField
    split
    · exact putOctets_digitsAccepted s 0 _
    · exact addressField_digitsAccepted .sc 0 s
  have htpdu (p : Nat) (u : State) : (tpduFields .passthrough p u).DigitsAccepted := by
    have hmessage : (messageField p u).DigitsAccepted := putOctets_digitsAccepted u p _
    have hda := andThen_digitsAccepted hmessage fun q t =>
      (addressField_digitsAccepted .da q t : (daField .passthrough q t).DigitsAccepted)
    have hparameters := andThen_digitsAccepted hda fun q t =>
      (putOctets_digitsAccepted t q _ : (parameterField q t).DigitsAccepted)
    exact andThen_digitsAccepted hparameters fun q t =>
      (ifFits_digitsAccepted t q _ _ trivial : (userDataField q t).DigitsAccepted)
  exact close_status_ne_invalidDigit hsc fun p u =>
    close_status_ne_invalidDigit (htpdu p u) fun _ _ => nofun

theorem packPhoneWith_passthrough_status (src : PhoneSource) (s : State) :
    (packPhoneWith .passthrough src s).status ≠ .invalidDigit :=
  close_status_ne_invalidDigit (ifFits_digitsAccepted _ _ _ _ (packDigits_digitsAccepted _ _ _ _))
    fun _ _ => nofun

theorem packTextEffect_status_ne_invalidDigit (s : State) :
    (packTextEffect s).status ≠ .invalidDigit :=
  close_status_ne_invalidDigit (ifFits_digitsAccepted _ _ _ _ trivial) fun _ _ => nofun

theorem execFor_passthrough_status (i : Instr) (s : State) :
    ∃ t, execFor .passthrough i s = .next t ∧ t.status ≠ .invalidDigit := by
  cases i with
  | packPhone src => exact ⟨_, rfl, packPhoneWith_passthrough_status src s⟩
  | packText => exact ⟨_, rfl, packTextEffect_status_ne_invalidDigit s⟩
  | encodePdu => exact ⟨_, rfl, encodePduWith_passthrough_status s⟩
  | hexFormat => exact ⟨_, rfl, nofun⟩

/-- Settles O31: without the digit check the semi-octets are written as they are, values and draws;
and nothing raises INVALID_DIGIT. -/
theorem passthroughDrawsForNonDigits : Obligations.PassthroughDrawsForNonDigits := by
  refine ⟨fun src s hfit => ?_, fun i s t h => ?_⟩
  · have hlen := length_phoneBytes s src
    refine ⟨_, rfl, ?_, ?_, fun m hm => ⟨fun ⟨h0, h1⟩ => ?_, fun hd => ?_⟩,
      fun m hm => ⟨fun hd => ?_, fun hd => ?_⟩⟩
    · rw [packPhoneWith_passthrough src s hfit]
      exact finishedWith_of_fits s _ _ hfit
    · rw [packPhoneWith_passthrough src s hfit, ← length_semiOctets_phoneBytes]
      exact (lays_semiOctets s _ _ 0).sameBytesOutside
    · refine packPhoneWith_passthrough_value src s hfit ?_
      rw [semiOctets_pair _ m (by omega), pairOctet_digits _ _ h0 h1]
    · refine packPhoneWith_passthrough_draw src s hfit ?_
      rw [semiOctets_pair _ m (by omega), pairOctet_nonDigit _ _ hd]
    · refine packPhoneWith_passthrough_value src s hfit ?_
      rw [semiOctets_last _ m (by omega), lastOctet_digit _ hd]
    · refine packPhoneWith_passthrough_draw src s hfit ?_
      rw [semiOctets_last _ m (by omega), lastOctet_nonDigit _ hd]
  · obtain ⟨u, hu, hstatus⟩ := execFor_passthrough_status i s
    rw [hu] at h
    cases h
    exact hstatus

/-! ### Unpacking -/

/-- The characters of a semi-octet, low nibble first; a draw has none. -/
def unpackOctet : Option Byte → List Byte
  | some b => [(b &&& 0x0F#8) + 0x30#8, (b >>> 4) + 0x30#8]
  | none => []

/-- The two digits of a pair come back from its octet. -/
theorem unpackOctet_pairOctet (c0 c1 : Byte) (h0 : isDigit c0 = true) (h1 : isDigit c1 = true) :
    unpackOctet (pairOctet c0 c1) = [c0, c1] := by
  have key : ∀ a b : Fin 10,
      unpackOctet (some (BitVec.ofNat 8 (a.val + 16 * b.val))) =
        [BitVec.ofNat 8 (0x30 + a.val), BitVec.ofNat 8 (0x30 + b.val)] := by decide
  have hc (c : Byte) (h : 0x30 ≤ c.toNat ∧ c.toNat ≤ 0x39) :
      BitVec.ofNat 8 (0x30 + (c.toNat - 0x30)) = c := by
    rw [Nat.add_sub_of_le h.1]
    exact BitVec.eq_of_toNat_eq (toNat_ofNat_byte c.isLt)
  rw [pairOctet_digits c0 c1 h0 h1]
  rw [isDigit_iff] at h0 h1
  have hkey := key ⟨c0.toNat - 0x30, by omega⟩ ⟨c1.toNat - 0x30, by omega⟩
  rwa [hc c0 h0, hc c1 h1] at hkey

theorem unpack_semiOctets (cs : List Byte) (heven : cs.length % 2 = 0)
    (hdigits : cs.all isDigit = true) : (semiOctets cs).flatMap unpackOctet = cs := by
  induction cs using semiOctets.induct with
  | case1 => rfl
  | case2 c => exact absurd heven (by rw [List.length_singleton]; decide)
  | case3 c0 c1 rest ih =>
    simp only [List.all_cons, Bool.and_eq_true] at hdigits
    obtain ⟨h0, h1, hrest⟩ := hdigits
    simp only [List.length_cons] at heven
    rw [semiOctets, List.flatMap_cons, unpackOctet_pairOctet c0 c1 h0 h1, ih (by omega) hrest]
    rfl

/-- Settles O32, by induction on the pairs of the string. -/
theorem semiOctetsUnpackToTheDigits : Obligations.SemiOctetsUnpackToTheDigits := by
  intro cs heven hdigits
  have hall : cs.all isDigit = true :=
    List.all_eq_true.mpr fun c hc => (isDigit_iff c).mpr (hdigits c hc)
  exact unpack_semiOctets cs heven hall

end Sys2Proof.Machine

/-! SUPPORT. The seven-bit text packer (42_seven_bit_text_packer.md): the loop of Pack7 as the
septet stream (R70), what PACK_TEXT does not depend on (R68), and when it cannot fail (R73). -/

namespace Sys2Proof.Machine

/-! ### Septets -/

theorem septet_toNat (c : Byte) : (septet c).toNat = c.toNat % 128 := by
  rw [septet, BitVec.toNat_and]
  exact Nat.and_two_pow_sub_one_eq_mod c.toNat 7

theorem septet_getLsbD (c : Byte) (u : Nat) :
    (septet c).getLsbD u = (decide (u < 7) && c.getLsbD u) := by
  rw [BitVec.getLsbD, septet_toNat]
  exact Nat.testBit_mod_two_pow c.toNat 7 u

/-! ### The septet stream -/

/-- Bit `n` of the septet stream of a text (R70): bit `n % 7` of character `n / 7`, and 0 past the
last character. -/
def streamBit (cs : List Byte) (n : Nat) : Bool := (cs.getD (n / 7) 0#8).getLsbD (n % 7)

theorem streamBit_nil (n : Nat) : streamBit [] n = false := by
  rw [streamBit, List.getD_nil, BitVec.getLsbD_zero]

theorem streamBit_cons_of_lt (c : Byte) (cs : List Byte) {n : Nat} (h : n < 7) :
    streamBit (c :: cs) n = c.getLsbD n := by
  rw [streamBit, Nat.div_eq_of_lt h, Nat.mod_eq_of_lt h, List.getD_cons_zero]

theorem streamBit_cons_add (c : Byte) (cs : List Byte) (n : Nat) :
    streamBit (c :: cs) (n + 7) = streamBit cs n := by
  rw [streamBit, streamBit, Nat.add_div_right n (by decide), Nat.add_mod_right,
    List.getD_cons_succ]

/-- No bit of the text above the seventh is set: its characters are septets (R68). -/
def IsSeptets (cs : List Byte) : Prop := ∀ c ∈ cs, ∀ u, 7 ≤ u → c.getLsbD u = false

theorem isSeptets_map_septet (cs : List Byte) : IsSeptets (cs.map septet) := by
  intro c hc u hu
  obtain ⟨c, -, rfl⟩ := List.mem_map.mp hc
  rw [septet_getLsbD, decide_eq_false (by omega), Bool.false_and]

theorem IsSeptets.head {c : Byte} {cs : List Byte} (h : IsSeptets (c :: cs)) {u : Nat}
    (hu : 7 ≤ u) : c.getLsbD u = false := h c List.mem_cons_self u hu

theorem IsSeptets.tail {c : Byte} {cs : List Byte} (h : IsSeptets (c :: cs)) : IsSeptets cs :=
  fun d hd => h d (List.mem_cons_of_mem c hd)

/-- The byte of the loop at shift counter `k`: what is left of one character, and the first bits of
the next one. -/
theorem loopByte_getLsbD (c0 c1 : Byte) (rest : List Byte) (k b : Nat) (hk : 1 ≤ k) (hk7 : k ≤ 7)
    (hb : b < 8) (h : IsSeptets (c0 :: c1 :: rest)) :
    ((c0 >>> (k - 1)) ||| (c1 <<< (8 - k))).getLsbD b =
      streamBit (c0 :: c1 :: rest) (b + (k - 1)) := by
  rw [BitVec.getLsbD_or, BitVec.getLsbD_ushiftRight, BitVec.getLsbD_shiftLeft, decide_eq_true hb,
    Bool.true_and, Nat.add_comm (k - 1) b]
  by_cases hn : b + (k - 1) < 7
  · rw [streamBit_cons_of_lt _ _ hn, decide_eq_true (by omega), Bool.not_true, Bool.false_and,
      Bool.or_false]
  · obtain ⟨n, hn'⟩ : ∃ n, b + (k - 1) = n + 7 := ⟨b + (k - 1) - 7, by omega⟩
    rw [h.head (by omega), Bool.false_or, decide_eq_false (by omega), Bool.not_false,
      Bool.true_and, hn', streamBit_cons_add, streamBit_cons_of_lt _ _ (by omega)]
    congr 1
    omega

/-- From shift counter `k` the loop emits the septet stream but for its first `k - 1` bits, by
induction along the loop. -/
theorem pack7Loop_getLsbD (cs : List Byte) (k j b : Nat) (hk : 1 ≤ k) (hk7 : k ≤ 7) (hb : b < 8)
    (h : IsSeptets cs) :
    ((pack7Loop cs k).getD j 0#8).getLsbD b = streamBit cs (8 * j + b + (k - 1)) := by
  fun_induction pack7Loop cs k generalizing j with
  | case1 k => rw [streamBit_nil, List.getD_nil, BitVec.getLsbD_zero]
  | case2 c k =>
    cases j with
    | zero =>
      rw [List.getD_cons_zero, BitVec.getLsbD_ushiftRight, Nat.mul_zero, Nat.zero_add,
        Nat.add_comm (k - 1) b]
      by_cases hn : b + (k - 1) < 7
      · rw [streamBit_cons_of_lt _ _ hn]
      · obtain ⟨n, hn'⟩ : ∃ n, b + (k - 1) = n + 7 := ⟨b + (k - 1) - 7, by omega⟩
        rw [h.head (by omega), hn', streamBit_cons_add, streamBit_nil]
    | succ j =>
      obtain ⟨n, hn⟩ : ∃ n, 8 * (j + 1) + b + (k - 1) = n + 7 := ⟨8 * j + b + k, by omega⟩
      rw [List.getD_cons_succ, List.getD_nil, BitVec.getLsbD_zero, hn, streamBit_cons_add,
        streamBit_nil]
  | case3 c0 c1 rest k ih1 ih2 =>
    cases j with
    | zero =>
      rw [List.getD_cons_zero, loopByte_getLsbD c0 c1 rest k b hk hk7 hb h, Nat.mul_zero,
        Nat.zero_add]
    | succ j =>
      rw [List.getD_cons_succ]
      by_cases hwrap : k + 1 = 8
      · rw [if_pos hwrap, ih1 j (by omega) (by omega) h.tail.tail, Nat.sub_self, Nat.add_zero,
          show 8 * (j + 1) + b + (k - 1) = 8 * j + b + 7 + 7 by omega,
          streamBit_cons_add, streamBit_cons_add]
      · rw [if_neg hwrap, ih2 j (by omega) (by omega) h.tail,
          show 8 * (j + 1) + b + (k - 1) = 8 * j + b + (k + 1 - 1) + 7 by omega,
          streamBit_cons_add]

/-- A stream bit of the septets is that bit of the character, within the text. -/
theorem streamBit_map_septet (cs : List Byte) (n : Nat) :
    streamBit (cs.map septet) n =
      (decide (n < 7 * cs.length) && (cs.getD (n / 7) 0#8).getLsbD (n % 7)) := by
  by_cases h : n < 7 * cs.length
  · have hi : n / 7 < cs.length := by omega
    have hu : n % 7 < 7 := by omega
    rw [streamBit, List.getD_eq_getElem _ _ (by rwa [List.length_map]), List.getElem_map,
      septet_getLsbD, List.getD_eq_getElem _ _ hi, decide_eq_true h, decide_eq_true hu]
  · rw [streamBit, List.getD_eq_default _ _ (by rw [List.length_map]; omega),
      BitVec.getLsbD_zero, decide_eq_false h, Bool.false_and]

/-- Settles O34: the loop from shift counter 1 is the stream from its first bit. -/
theorem pack7IsTheSeptetStream : Obligations.Pack7IsTheSeptetStream := by
  intro cs j b _ hb
  rw [pack7, pack7Loop_getLsbD _ 1 j b le_rfl (by omega) hb (isSeptets_map_septet cs),
    Nat.sub_self, Nat.add_zero, streamBit_map_septet]

/-! ### The same outcome -/

/-- Two runs end alike: the same STATUS, result registers and result bytes. -/
structure SameOutcome (t t' : State) : Prop where
  status : t'.status = t.status
  resultLen : t'.resultLen = t.resultLen
  tpduLen : t'.tpduLen = t.tpduLen
  hexCount : t'.hexCount = t.hexCount
  bytes : ∀ j, j < t.resultLen.val → t'.peek j = t.peek j

/-- Two error exits of one kind. -/
theorem sameOutcome_raise (u u' : State) (e : EncodeError) :
    SameOutcome (u.raise e) (u'.raise e) :=
  ⟨rfl, rfl, rfl, rfl, fun _ hj => absurd hj (Nat.not_lt_zero _)⟩

/-- Two success exits behind the same values laid down in OUT. -/
theorem Lays.sameOutcome_finish {s s' u u' : State} {os : List (Option Byte)}
    (h : Lays 0 s os u) (h' : Lays 0 s' os u') (hvalues : none ∉ os) (tpdu : Nat) :
    SameOutcome (u.finish os.length tpdu) (u'.finish os.length tpdu) := by
  refine ⟨rfl, rfl, rfl, rfl, fun j hj => ?_⟩
  have hj' : j < os.length := hj.trans_le (Nat.mod_le _ _)
  rw [finish_peek, finish_peek, ← Nat.zero_add j, h.peek_of_none_notMem hvalues hj',
    h'.peek_of_none_notMem hvalues hj']

/-- PACK_TEXT depends on its length, the capacity and the septet stream of the text it reads. -/
theorem packTextEffect_sameOutcome (s s' : State) (hlen : s'.textLen = s.textLen)
    (hcap : s'.effCap = s.effCap) (hstream : pack7 s'.textBytes = pack7 s.textBytes) :
    SameOutcome (packTextEffect s) (packTextEffect s') := by
  by_cases hfit : ceilDiv (7 * s.textLen.toNat) 8 ≤ s.effCap
  · obtain ⟨u, hu, hlays⟩ := packTextEffect_fits s hfit
    obtain ⟨u', hu', hlays'⟩ := packTextEffect_fits s' (by rwa [hlen, hcap])
    rw [hlen] at hu'
    rw [hstream] at hlays'
    rw [hu, hu', ← length_pack7_textBytes, ← List.length_map (f := some)]
    exact hlays.sameOutcome_finish hlays' (by simp) 0
  · rw [packTextEffect_exceeds s (by omega), packTextEffect_exceeds s' (by rw [hlen, hcap]; omega)]
    exact sameOutcome_raise s s' _

/-! ### The top bit, and the full capacity -/

theorem effCap_congr {s s' : State} (h : s'.outCap = s.outCap) : s'.effCap = s.effCap := by
  rw [State.effCap, State.effCap, h]

/-- The packed text is that of the septets only (R68). -/
theorem pack7_congr {cs cs' : List Byte} (hlen : cs'.length = cs.length)
    (h : ∀ k, k < cs.length → septet (cs'.getD k 0#8) = septet (cs.getD k 0#8)) :
    pack7 cs' = pack7 cs := by
  rw [pack7, pack7]
  congr 1
  refine List.ext_getElem (by rw [List.length_map, List.length_map, hlen]) fun k hk' hk => ?_
  rw [List.length_map] at hk hk'
  have hseptet := h k hk
  rw [List.getD_eq_getElem _ _ hk, List.getD_eq_getElem _ _ hk'] at hseptet
  rw [List.getElem_map, List.getElem_map, hseptet]

theorem length_textBytes (s : State) : s.textBytes.length = s.textLen.toNat :=
  readBytes_length s _ _

/-- Settles O36: bytes that agree modulo 128 are one septet, and PACK_TEXT packs septets. -/
theorem packTextIgnoresTheTopBit : Obligations.PackTextIgnoresTheTopBit := by
  intro s s' hlen hcap hbytes
  have hstream : pack7 s'.textBytes = pack7 s.textBytes := by
    refine pack7_congr (by rw [length_textBytes, length_textBytes, hlen]) fun k hk => ?_
    rw [length_textBytes] at hk
    obtain ⟨b, b', hb, hb', hmod⟩ := hbytes k hk
    rw [textBytes_written s hk hb, textBytes_written s' (hlen ▸ hk) hb']
    exact BitVec.eq_of_toNat_eq (by rw [septet_toNat, septet_toNat, hmod])
  have h := packTextEffect_sameOutcome s s' hlen (effCap_congr hcap) hstream
  exact ⟨_, _, rfl, rfl, h.status, h.resultLen, h.bytes⟩

/-- Settles O37: 255 characters need 224 bytes. -/
theorem packTextNeverFailsAtFullCapacity : Obligations.PackTextNeverFailsAtFullCapacity := by
  intro s hcap
  have hlen := s.textLen.isLt
  have heff := effCap_eq s
  have hfit : ceilDiv (7 * s.textLen.toNat) 8 ≤ s.effCap := by
    unfold ceilDiv
    split_ifs at heff <;> omega
  obtain ⟨u, hu, -⟩ := packTextEffect_fits s hfit
  exact ⟨_, congrArg Host.Outcome.next hu, finish_status u _ 0⟩

end Sys2Proof.Machine

/-! SUPPORT. The errors of ENCODE_PDU (43_pdu_assembler.md, 60_exceptions.md section 3): which check
fails first, and the statements about when it succeeds and with what it fails. -/

namespace Sys2Proof.Machine

/-! ### Where the five steps fail -/

/-- The progress ends in the given error. -/
def Progress.Raises (r : Progress) (e : EncodeError) : Prop := ∃ u, r = .raised e u

theorem Progress.Raises.andThen {r : Progress} {e : EncodeError} (h : r.Raises e)
    (next : Nat → State → Progress) : (r.andThen next).Raises e := by
  obtain ⟨u, rfl⟩ := h
  exact ⟨u, rfl⟩

theorem pduFields_of_scField {s : State} {e : EncodeError} (h : (scField .strict 0 s).Raises e) :
    s.pduFields.Raises e :=
  (((h.andThen messageField).andThen (daField .strict)).andThen parameterField).andThen
    userDataField

/-- A service center with a non-digit is present, so its field is an address field. -/
theorem scField_of_nonDigit (dc : DigitCheck) (p : Nat) (s : State) (h : HasNonDigit s.pduSc) :
    scField dc p s = addressField dc .sc p s ∧ s.scFieldSize = 2 + ceilDiv (s.phoneLen .sc) 2 := by
  have hlen : s.scLen.toNat ≠ 0 := by
    obtain ⟨k, hk, -⟩ := h
    rw [State.pduSc, length_phoneBytes, State.phoneLen] at hk
    omega
  exact ⟨if_neg fun h0 => hlen (congrArg BitVec.toNat h0), if_neg hlen⟩

theorem pduFields_scNonDigit (s : State) (hbad : HasNonDigit s.pduSc)
    (hfit : s.scFieldSize ≤ s.effCap) : s.pduFields.Raises .invalidDigit := by
  obtain ⟨hfield, hsize⟩ := scField_of_nonDigit .strict 0 s hbad
  exact pduFields_of_scField
    (hfield ▸ addressField_nonDigit .sc 0 s (by omega) ((all_isDigit_false_iff _).mpr hbad))

theorem pduFields_scExceeds (s : State) (hsmall : s.effCap < s.scFieldSize) :
    s.pduFields.Raises .bufferTooSmall := by
  refine pduFields_of_scField ⟨s, ?_⟩
  by_cases h : s.scLen.toNat = 0
  · have hsize : s.scFieldSize = 1 := if_pos h
    rw [scField, if_pos (BitVec.eq_of_toNat_eq h)]
    exact putOctets_exceeds s 0 [0x00#8] (by rw [List.length_singleton]; omega)
  · have hsize : s.scFieldSize = 2 + ceilDiv (s.phoneLen .sc) 2 := if_neg h
    rw [scField, if_neg fun h0 => h (congrArg BitVec.toNat h0)]
    exact addressField_exceeds .strict .sc 0 s (by omega)

/-- With a good service center, steps 1 and 2 either lay down their bytes, and the destination is
read as if they had not, or the capacity is too small for them. -/
theorem messageField_cases (s : State) (hgood : ¬ HasNonDigit s.pduSc) :
    (s.scFieldSize + 2 ≤ s.effCap ∧ ∃ t,
      (scField .strict 0 s).andThen messageField = .reached (s.scFieldSize + 2) t ∧
      t.effCap = s.effCap ∧ t.phoneLen .da = s.daLen.toNat ∧ t.phoneBytes .da = s.pduDa) ∨
    (s.effCap < s.scFieldSize + 2 ∧
      ((scField .strict 0 s).andThen messageField).Raises .bufferTooSmall) := by
  have hfields := (scField_assembles 0 s).andThen (next := messageField) fun t _ _ hdraws =>
    hdraws ▸ messageField_assembles _ t
  have hlen : 0 + (s.scLayout ++ [some 0x11#8, some 0x00#8]).length = s.scFieldSize + 2 := by
    rw [List.length_append, length_scLayout, Nat.zero_add]
    rfl
  generalize (scField .strict 0 s).andThen messageField = r at hfields
  cases hfields with
  | raised e u short =>
    obtain ⟨rfl, hshort⟩ := short (by
      rwa [List.append_nil, all_isDigit_iff_not_hasNonDigit])
    exact .inr ⟨by omega, u, rfl⟩
  | reached t digits fits lays draws =>
    exact .inl ⟨by omega, t, by rw [hlen], lays.touched.effCap, lays.touched.phoneLen .da,
      (reads_da_after_out lays fits draws).1⟩

theorem pduFields_of_daField {s t : State} {p : Nat} {e : EncodeError}
    (ht : (scField .strict 0 s).andThen messageField = .reached p t)
    (h : (addressField .strict .da p t).Raises e) : s.pduFields.Raises e := by
  rw [State.pduFields, ht]
  exact Progress.Raises.andThen (Progress.Raises.andThen h parameterField) userDataField

theorem pduFields_daNonDigit (s : State) (hgood : ¬ HasNonDigit s.pduSc)
    (hbad : HasNonDigit s.pduDa)
    (hfit : s.scFieldSize + 4 + ceilDiv s.daLen.toNat 2 ≤ s.effCap) :
    s.pduFields.Raises .invalidDigit := by
  rcases messageField_cases s hgood with ⟨-, t, ht, hcap, hlen, hbytes⟩ | ⟨hsmall, -⟩
  · refine pduFields_of_daField ht (addressField_nonDigit .da _ t ?_ ?_)
    · rw [hlen, hcap]
      omega
    · rw [hbytes]
      exact (all_isDigit_false_iff _).mpr hbad
  · omega

theorem pduFields_daExceeds (s : State) (hgood : ¬ HasNonDigit s.pduSc)
    (hsmall : s.effCap < s.scFieldSize + 4 + ceilDiv s.daLen.toNat 2) :
    s.pduFields.Raises .bufferTooSmall := by
  rcases messageField_cases s hgood with ⟨-, t, ht, hcap, hlen, -⟩ | ⟨-, hraises⟩
  · refine pduFields_of_daField ht ⟨t, addressField_exceeds .strict .da _ t ?_⟩
    rw [hlen, hcap]
    omega
  · exact ((hraises.andThen (daField .strict)).andThen parameterField).andThen userDataField

theorem pduFields_exceeds (s : State) (hsc : ¬ HasNonDigit s.pduSc) (hda : ¬ HasNonDigit s.pduDa)
    (hsmall : s.effCap < s.pduTotal) : s.pduFields.Raises .bufferTooSmall := by
  have hpdu := pduFields_assembles s
  have hlen := length_pduLayout s
  generalize s.pduFields = r at hpdu
  cases hpdu with
  | raised e u short =>
    obtain ⟨rfl, -⟩ := short ((pduDigits_all_iff s).mpr ⟨hsc, hda⟩)
    exact ⟨u, rfl⟩
  | reached t digits fits lays draws => omega

/-! ### The error ENCODE_PDU ends with -/

/-- The error of ENCODE_PDU, its checks in the order of R82 and R96, or `none` when it ends OK. -/
def State.pduError (s : State) : Option EncodeError :=
  if s.daLen.toNat = 0 then some .emptyDestination
  else if 160 < s.textLen.toNat then some .textTooLong
  else if s.effCap < s.scFieldSize then some .bufferTooSmall
  else if s.pduSc.all isDigit = false then some .invalidDigit
  else if s.effCap < s.scFieldSize + 4 + ceilDiv s.daLen.toNat 2 then some .bufferTooSmall
  else if s.pduDa.all isDigit = false then some .invalidDigit
  else if s.effCap < s.pduTotal then some .bufferTooSmall
  else none

theorem encodePduWith_of_raises (s : State) {e : EncodeError} (hda : s.daLen.toNat ≠ 0)
    (htext : s.textLen.toNat ≤ 160) (h : s.pduFields.Raises e) :
    ∃ u : State, encodePduWith .strict s = u.raise e := by
  obtain ⟨u, hu⟩ := h
  exact ⟨u, by rw [encodePduWith_eq s hda htext, hu, close_raised]⟩

theorem encodePduWith_pduError (s : State) {e : EncodeError} (h : s.pduError = some e) :
    ∃ u : State, encodePduWith .strict s = u.raise e := by
  have hbad := fun cs => (all_isDigit_false_iff cs).mp
  have hgood := fun cs => mt (all_isDigit_false_iff cs).mpr
  unfold State.pduError at h
  split_ifs at h with hda htext hscFits hsc hdaFits hda' htotal <;> cases h
  · exact ⟨s, encodePduWith_emptyDestination _ s hda⟩
  · exact ⟨s, encodePduWith_textTooLong _ s hda htext⟩
  · exact encodePduWith_of_raises s hda (by omega) (pduFields_scExceeds s hscFits)
  · exact encodePduWith_of_raises s hda (by omega) (pduFields_scNonDigit s (hbad _ hsc) (by omega))
  · exact encodePduWith_of_raises s hda (by omega) (pduFields_daExceeds s (hgood _ hsc) hdaFits)
  · exact encodePduWith_of_raises s hda (by omega)
      (pduFields_daNonDigit s (hgood _ hsc) (hbad _ hda') (by omega))
  · exact encodePduWith_of_raises s hda (by omega)
      (pduFields_exceeds s (hgood _ hsc) (hgood _ hda') htotal)

theorem pduAccepted_of_pduError_none (s : State) (h : s.pduError = none) : s.PduAccepted := by
  unfold State.pduError at h
  split_ifs at h with hda htext hscFits hsc hdaFits hda' htotal
  exact ⟨hda, by omega, mt (all_isDigit_false_iff _).mpr hsc,
    mt (all_isDigit_false_iff _).mpr hda', by omega⟩

theorem exec_encodePdu_failedWith (s : State) {e : EncodeError} (hda : s.daLen.toNat ≠ 0)
    (htext : s.textLen.toNat ≤ 160) (h : s.pduFields.Raises e) :
    ∃ t, exec .encodePdu s = .next t ∧ FailedWith t e.status := by
  obtain ⟨u, hu⟩ := encodePduWith_of_raises s hda htext h
  exact ⟨_, congrArg Host.Outcome.next hu, raise_failedWith u e⟩

/-! ### The statements -/

/-- Settles O40: both checks come before the five steps, the destination's first. -/
theorem encodePduArgumentChecks : Obligations.EncodePduArgumentChecks := by
  refine fun s => ⟨fun hda => ?_, fun hda htext => ?_⟩
  · exact ⟨_, congrArg Host.Outcome.next (encodePduWith_emptyDestination _ s hda),
      raise_failedWith s _⟩
  · exact ⟨_, congrArg Host.Outcome.next (encodePduWith_textTooLong _ s hda htext),
      raise_failedWith s _⟩

/-- Settles O41: each field checks its capacity before its digits, and step 3 comes behind steps 1
and 2. -/
theorem encodePduDigitErrorPrecedence : Obligations.EncodePduDigitErrorPrecedence := by
  refine fun s hda htext => ⟨fun hsc hfit => ?_, fun _ hsmall => ?_, fun hsc hbad hfit => ?_,
    fun hsc _ hsmall => ?_⟩
  · exact exec_encodePdu_failedWith s hda htext (pduFields_scNonDigit s hsc hfit)
  · exact exec_encodePdu_failedWith s hda htext (pduFields_scExceeds s hsmall)
  · exact exec_encodePdu_failedWith s hda htext (pduFields_daNonDigit s hsc hbad hfit)
  · exact exec_encodePdu_failedWith s hda htext (pduFields_daExceeds s hsc hsmall)

theorem exec_encodePdu_ok_iff (s t : State) (h : exec .encodePdu s = .next t) :
    t.status = .ok ↔ s.PduAccepted := by
  constructor
  · intro ht
    cases h
    exact pduAccepted_of_ok s ht
  · intro haccepted
    obtain ⟨u, hu, hpdu⟩ := exec_encodePdu_accepted s haccepted
    rw [hu] at h
    cases h
    exact hpdu.registers.status

/-- Settles O39: OK is what R82 asks for; and with everything but the room, the five steps raise
BUFFER_TOO_SMALL. -/
theorem encodePduSucceedsExactly : Obligations.EncodePduSucceedsExactly := by
  intro s t h
  have hok := exec_encodePdu_ok_iff s t h
  refine ⟨hok.trans ⟨fun ⟨hda, htext, hsc, hda', hfit⟩ => ?_,
    fun ⟨hda, htext, ⟨hsc, hda'⟩, hfit⟩ => ?_⟩, fun hda htext hsc hda' => ⟨fun ht => ?_,
    fun hsmall => ?_⟩⟩
  · exact ⟨Nat.pos_of_ne_zero hda, htext, ⟨hsc, hda'⟩, hfit⟩
  · exact ⟨Nat.ne_of_gt hda, htext, hsc, hda', hfit⟩
  · by_contra hfit
    have := hok.mpr ⟨Nat.ne_of_gt hda, htext, hsc, hda', Nat.not_lt.mp hfit⟩
    exact absurd (ht.symm.trans this) (by decide)
  · obtain ⟨u, hu, hfailed⟩ := exec_encodePdu_failedWith s (Nat.ne_of_gt hda) htext
      (pduFields_exceeds s hsc hda' hsmall)
    rw [hu] at h
    cases h
    exact hfailed.status

end Sys2Proof.Machine

/-! SUPPORT. The operands of the packing commands (30_encoding.md R56, 70_reset_and_hazards.md
section 5): what the outcome of each one depends on. -/

namespace Sys2Proof.Machine

/-! ### Written inputs -/

/-- The `n` bytes from host address `a` on are written and the same in both states. -/
def SameWritten (s s' : State) (a n : Nat) : Prop :=
  ∀ k, k < n → (s.peek (a + k)).isSome = true ∧ s'.peek (a + k) = s.peek (a + k)

section
variable {s s' : State} {a n : Nat} (h : SameWritten s s' a n)
include h

theorem SameWritten.reads_state : (s.readBytes a n).2 = s :=
  readBytes_written_state s a n fun k hk => (h k hk).1

theorem SameWritten.reads_state' : (s'.readBytes a n).2 = s' :=
  readBytes_written_state s' a n fun k hk => by
    rw [(h k hk).2]
    exact (h k hk).1

/-- Written bytes are read without a draw, so the counts of draws do not matter. -/
theorem SameWritten.reads_bytes : (s'.readBytes a n).1 = (s.readBytes a n).1 := by
  refine List.ext_getElem (by rw [readBytes_length, readBytes_length]) fun k hk' hk => ?_
  rw [← List.getD_eq_getElem _ 0#8 hk', ← List.getD_eq_getElem _ 0#8 hk]
  rw [readBytes_length] at hk
  obtain ⟨hsome, hsame⟩ := h k hk
  obtain ⟨b, hb⟩ := Option.isSome_iff_exists.mp hsome
  rw [readBytes_written_value s a n k b hk hb,
    readBytes_written_value s' a n k b hk (hsame.trans hb)]
end

/-! ### PACK_PHONE -/

/-- PACK_PHONE depends on the capacity and on the characters it reads. -/
theorem packPhoneWith_sameOutcome (src : PhoneSource) (s s' : State)
    (hlen : s'.phoneLen src = s.phoneLen src) (hcap : s'.effCap = s.effCap)
    (hbytes : s'.phoneBytes src = s.phoneBytes src) :
    SameOutcome (packPhoneWith .strict src s) (packPhoneWith .strict src s') := by
  by_cases hfit : ceilDiv (s.phoneLen src) 2 ≤ s.effCap
  · have hfit' : ceilDiv (s'.phoneLen src) 2 ≤ s'.effCap := by rwa [hlen, hcap]
    by_cases hbad : HasNonDigit (s.phoneBytes src)
    · rw [packPhoneWith_nonDigit src s hfit hbad,
        packPhoneWith_nonDigit src s' hfit' (hbytes ▸ hbad)]
      exact sameOutcome_raise _ _ _
    · obtain ⟨u, hu, hlays⟩ := packPhoneWith_packs .strict src s hfit fun _ => hbad
      obtain ⟨u', hu', hlays'⟩ := packPhoneWith_packs .strict src s' hfit' fun _ => hbytes ▸ hbad
      rw [hlen] at hu'
      rw [hbytes] at hlays'
      rw [hu, hu', ← length_semiOctets_phoneBytes]
      exact hlays.sameOutcome_finish hlays' (none_notMem_semiOctets _ hbad) 0
  · rw [packPhoneWith_exceeds .strict src s (by omega),
      packPhoneWith_exceeds .strict src s' (by rw [hlen, hcap]; omega)]
    exact sameOutcome_raise s s' _

/-! ### ENCODE_PDU -/

/-- The operands of ENCODE_PDU in two states: the lengths, the capacity, and the strings read. -/
structure SamePduOperands (s s' : State) : Prop where
  scLen : s'.scLen = s.scLen
  daLen : s'.daLen = s.daLen
  textLen : s'.textLen = s.textLen
  effCap : s'.effCap = s.effCap
  sc : s'.pduSc = s.pduSc
  da : s'.pduDa = s.pduDa
  text : s'.pduText = s.pduText

section
variable {s s' : State} (h : SamePduOperands s s')
include h

theorem SamePduOperands.scFieldSize : s'.scFieldSize = s.scFieldSize := by
  rw [State.scFieldSize, State.scFieldSize, h.scLen]

theorem SamePduOperands.pduTotal : s'.pduTotal = s.pduTotal := by
  rw [State.pduTotal, State.pduTotal, h.scFieldSize, h.daLen, h.textLen]

theorem SamePduOperands.pduLayout : s'.pduLayout = s.pduLayout := by
  rw [State.pduLayout, State.pduLayout, h.scLen, h.daLen, h.textLen, h.sc, h.da, h.text]

theorem SamePduOperands.pduError : s'.pduError = s.pduError := by
  rw [State.pduError, State.pduError, h.daLen, h.textLen, h.effCap, h.sc, h.da, h.scFieldSize,
    h.pduTotal]

theorem encodePduWith_sameOutcome :
    SameOutcome (encodePduWith .strict s) (encodePduWith .strict s') := by
  cases herror : s.pduError with
  | some e =>
    obtain ⟨u, hu⟩ := encodePduWith_pduError s herror
    obtain ⟨u', hu'⟩ := encodePduWith_pduError s' (h.pduError.trans herror)
    rw [hu, hu']
    exact sameOutcome_raise u u' e
  | none =>
    have haccepted := pduAccepted_of_pduError_none s herror
    obtain ⟨u, hu, hlays⟩ := encodePduWith_accepted s haccepted
    obtain ⟨u', hu', hlays'⟩ := encodePduWith_accepted s'
      (pduAccepted_of_pduError_none s' (h.pduError.trans herror))
    rw [h.pduTotal, h.scFieldSize] at hu'
    rw [h.pduLayout] at hlays'
    rw [hu, hu', ← length_pduLayout]
    exact hlays.sameOutcome_finish hlays'
      (none_notMem_pduLayout s haccepted.scDigits haccepted.daDigits) _
end

/-- Written strings are read without a draw, so ENCODE_PDU's later strings are read from the state
it started in. -/
theorem samePduOperands_of_sameWritten {s s' : State} (hcap : s'.outCap = s.outCap)
    (hscLen : s'.scLen = s.scLen) (hsc : SameWritten s s' 0x0100 s.scLen.toNat)
    (hdaLen : s'.daLen = s.daLen) (hda : SameWritten s s' 0x0200 s.daLen.toNat)
    (htextLen : s'.textLen = s.textLen) (htext : SameWritten s s' 0x0300 s.textLen.toNat) :
    SamePduOperands s s' := by
  have hafterSc : s.afterSc = s := hsc.reads_state
  have hafterSc' : s'.afterSc = s' := by
    rw [State.afterSc, hscLen]
    exact hsc.reads_state'
  have hafterDa : s.afterDa = s := by
    rw [State.afterDa, hafterSc]
    exact hda.reads_state
  have hafterDa' : s'.afterDa = s' := by
    rw [State.afterDa, hafterSc', hdaLen]
    exact hda.reads_state'
  refine ⟨hscLen, hdaLen, htextLen, effCap_congr hcap, ?_, ?_, ?_⟩
  · rw [State.pduSc, State.pduSc, State.phoneBytes, State.phoneLen, hscLen]
    exact hsc.reads_bytes
  · rw [State.pduDa, State.pduDa, hafterSc, hafterSc', State.phoneBytes, State.phoneLen, hdaLen]
    exact hda.reads_bytes
  · rw [State.pduText, State.pduText, hafterDa, hafterDa', State.textBytes, htextLen]
    exact htext.reads_bytes

/-! ### Every packing command -/

theorem packPhone_sameOutcome (src : PhoneSource) (s s' : State) (hcap : s'.outCap = s.outCap)
    (hlen : s'.phoneLen src = s.phoneLen src)
    (h : SameWritten s s' (phoneBuffer src).base (s.phoneLen src)) :
    SameOutcome (packPhoneWith .strict src s) (packPhoneWith .strict src s') := by
  refine packPhoneWith_sameOutcome src s s' hlen (effCap_congr hcap) ?_
  rw [State.phoneBytes, hlen]
  exact h.reads_bytes

theorem packText_sameOutcome (s s' : State) (hcap : s'.outCap = s.outCap)
    (hlen : s'.textLen = s.textLen) (h : SameWritten s s' 0x0300 s.textLen.toNat) :
    SameOutcome (packTextEffect s) (packTextEffect s') := by
  refine packTextEffect_sameOutcome s s' hlen (effCap_congr hcap) (congrArg pack7 ?_)
  rw [State.textBytes, hlen]
  exact h.reads_bytes

/-- Settles O49: each command's operands give the characters it reads, and those its outcome. -/
theorem packingOutcomeIsAFunctionOfOperands : Obligations.PackingOutcomeIsAFunctionOfOperands := by
  intro i s s' hpacks hcap hsc hda htext
  have hout : ∃ t t', exec i s = .next t ∧ exec i s' = .next t' ∧ SameOutcome t t' := by
    cases i with
    | packPhone src =>
      refine ⟨_, _, rfl, rfl, ?_⟩
      cases src with
      | sc =>
        obtain ⟨hlen, hbytes⟩ := hsc (by decide) (by decide)
        exact packPhone_sameOutcome .sc s s' hcap (congrArg BitVec.toNat hlen) hbytes
      | da =>
        obtain ⟨hlen, hbytes⟩ := hda (by decide) (by decide)
        exact packPhone_sameOutcome .da s s' hcap (congrArg BitVec.toNat hlen) hbytes
    | packText =>
      obtain ⟨hlen, hbytes⟩ := htext (by decide) (by decide)
      exact ⟨_, _, rfl, rfl, packText_sameOutcome s s' hcap hlen hbytes⟩
    | encodePdu =>
      obtain ⟨hscLen, hscBytes⟩ := hsc (by decide) (by decide)
      obtain ⟨hdaLen, hdaBytes⟩ := hda (by decide) (by decide)
      obtain ⟨htextLen, htextBytes⟩ := htext (by decide) (by decide)
      exact ⟨_, _, rfl, rfl, encodePduWith_sameOutcome (samePduOperands_of_sameWritten hcap hscLen
        hscBytes hdaLen hdaBytes htextLen htextBytes)⟩
    | hexFormat => exact hpacks.elim
  obtain ⟨t, t', ht, ht', h⟩ := hout
  exact ⟨t, t', ht, ht', h.status, h.resultLen, h.tpduLen, h.hexCount, h.bytes⟩

end Sys2Proof.Machine

/-! SUPPORT. The `ld_` lines of a host program (30_encoding.md R59): when the assembler accepts one,
and the writes it makes of it. -/

namespace Sys2Proof.Machine

/-! ### A string's writes -/

theorem length_writesFrom (a : Nat) (cs : List Byte) : (writesFrom a cs).length = cs.length := by
  induction cs generalizing a with
  | nil => rfl
  | cons c rest ih => rw [writesFrom, List.length_cons, List.length_cons, ih]

/-- The `i`-th write is that of character `i`, at the `i`-th address. -/
theorem writesFrom_getElem? (a : Nat) (cs : List Byte) (i : Nat) (h : i < cs.length) :
    (writesFrom a cs)[i]? = some (.write (BitVec.ofNat 16 (a + i)) (cs.getD i 0#8)) := by
  induction cs generalizing a i with
  | nil => exact absurd h (Nat.not_lt_zero i)
  | cons c rest ih =>
    cases i with
    | zero => rfl
    | succ i =>
      rw [writesFrom, List.getElem?_cons_succ, ih (a + 1) i (Nat.lt_of_succ_lt_succ h),
        List.getD_cons_succ, Nat.add_assoc, Nat.add_comm 1 i]

theorem length_loadString (b : Buffer) (r : Reg) (str : List Byte) :
    (loadString b r str).length = str.length + 1 := by
  rw [loadString, List.length_append, length_writesFrom, List.length_singleton]

theorem loadString_character (b : Buffer) (r : Reg) (str : List Byte) (i : Nat)
    (h : i < str.length) :
    (loadString b r str)[i]? =
      some (.write (BitVec.ofNat 16 (b.base + i)) (str.getD i 0#8)) := by
  rw [loadString, List.getElem?_append_left (by rwa [length_writesFrom]),
    writesFrom_getElem? b.base str i h]

theorem loadString_lengthWrite (b : Buffer) (r : Reg) (str : List Byte) :
    (loadString b r str)[str.length]? = some (.write r.addr (BitVec.ofNat 8 str.length)) := by
  rw [loadString, List.getElem?_append_right (by rw [length_writesFrom]), length_writesFrom,
    Nat.sub_self]
  rfl

/-! ### The assembler -/

theorem assemble_singleton_rejected (l : HostLine) (h : l.wf = false) : assemble [l] = none := by
  simp [assemble, h]

theorem assemble_singleton_accepted (l : HostLine) (h : l.wf = true) :
    assemble [l] = some l.events := by
  simp [assemble, h]

/-- Settles O51: the length is the only check of an `ld_` line, and its events are the string's
writes with the length register's behind them. -/
theorem loadLinesExpand : Obligations.LoadLinesExpand := by
  refine fun str => ⟨fun hlong => ?_, fun hshort => ?_⟩
  · have hwf : decide (str.length ≤ 255) = false := decide_eq_false (Nat.not_le.mpr hlong)
    exact ⟨assemble_singleton_rejected (.ldSc str) hwf, assemble_singleton_rejected (.ldDa str) hwf,
      assemble_singleton_rejected (.ldText str) hwf⟩
  · have hwf : decide (str.length ≤ 255) = true := decide_eq_true hshort
    exact ⟨_, _, _, assemble_singleton_accepted (.ldSc str) hwf,
      assemble_singleton_accepted (.ldDa str) hwf, assemble_singleton_accepted (.ldText str) hwf,
      length_loadString _ _ str, length_loadString _ _ str, length_loadString _ _ str,
      fun i hi => ⟨loadString_character .scIn _ str i hi, loadString_character .daIn _ str i hi,
        loadString_character .textIn _ str i hi⟩,
      loadString_lengthWrite _ .scLen str, loadString_lengthWrite _ .daLen str,
      loadString_lengthWrite _ .textLen str⟩

end Sys2Proof.Machine
